-- ==== Sys2Proof/Word.lean ====
section
/-! DEFINITION. The word types of the machine (00_scope.md R5, R7): every quantity is an unsigned
integer of a stated width. -/

namespace Sys2Proof

/-- A byte: a RAM cell, a general register, a timer, a `kk` literal (R11, R12, R18). -/
abbrev Byte := BitVec 8

/-- A 12-bit value: `pc`, `I`, a stack entry, an `nnn` literal (R14, R15, R16). -/
abbrev Addr := BitVec 12

/-- The index of a general register, `V0` to `VF` (R12). -/
abbrev Reg := BitVec 4

/-- A logical key code, 0x0 to 0xF (R20, R182). -/
abbrev Key := BitVec 4

/-- A `n` literal: the number of sprite rows (R62). -/
abbrev Nibble := BitVec 4

/-- A 16-bit opcode (R60). -/
abbrev Opcode := BitVec 16

end Sys2Proof
end

