-- ==== Sys2Proof/Syntax.lean ====
section
/-! DEFINITION. The instructions: one constructor per row of spec/opcode_table.json, in the table's
order (30_encoding.md R64), with the operands of its format (R61, R62). -/

namespace Sys2Proof

/-- The 35 instructions of R64. -/
inductive Instr where
  /-- `CLS` (R151) -/
  | cls
  /-- `RET` (R101) -/
  | ret
  /-- `SYS nnn` (R102) -/
  | sys (nnn : Addr)
  /-- `JP nnn` (R104) -/
  | jp (nnn : Addr)
  /-- `CALL nnn` (R103) -/
  | call (nnn : Addr)
  /-- `SE Vx, kk` (R105) -/
  | seLit (x : Reg) (kk : Byte)
  /-- `SNE Vx, kk` (R106) -/
  | sneLit (x : Reg) (kk : Byte)
  /-- `SE Vx, Vy` (R107) -/
  | seReg (x y : Reg)
  /-- `LD Vx, kk` (R121) -/
  | ldLit (x : Reg) (kk : Byte)
  /-- `ADD Vx, kk` (R122) -/
  | addLit (x : Reg) (kk : Byte)
  /-- `LD Vx, Vy` (R123) -/
  | ldReg (x y : Reg)
  /-- `OR Vx, Vy` (R124) -/
  | orReg (x y : Reg)
  /-- `AND Vx, Vy` (R125) -/
  | andReg (x y : Reg)
  /-- `XOR Vx, Vy` (R126) -/
  | xorReg (x y : Reg)
  /-- `ADD Vx, Vy` (R127) -/
  | addReg (x y : Reg)
  /-- `SUB Vx, Vy` (R128) -/
  | sub (x y : Reg)
  /-- `SHR Vx, Vy` (R129) -/
  | shr (x y : Reg)
  /-- `SUBN Vx, Vy` (R130) -/
  | subn (x y : Reg)
  /-- `SHL Vx, Vy` (R131) -/
  | shl (x y : Reg)
  /-- `SNE Vx, Vy` (R108) -/
  | sneReg (x y : Reg)
  /-- `LD I, nnn` (R141) -/
  | ldI (nnn : Addr)
  /-- `JP V0, nnn` (R109) -/
  | jpV0 (nnn : Addr)
  /-- `RND Vx, kk` (R132) -/
  | rnd (x : Reg) (kk : Byte)
  /-- `DRW Vx, Vy, n` (R152) -/
  | drw (x y : Reg) (n : Nibble)
  /-- `SKP Vx` (R160) -/
  | skp (x : Reg)
  /-- `SKNP Vx` (R161) -/
  | sknp (x : Reg)
  /-- `LD Vx, DT` (R162) -/
  | ldFromDt (x : Reg)
  /-- `LD Vx, K` (R163) -/
  | ldKey (x : Reg)
  /-- `LD DT, Vx` (R164) -/
  | ldDt (x : Reg)
  /-- `LD ST, Vx` (R165) -/
  | ldSt (x : Reg)
  /-- `ADD I, Vx` (R142) -/
  | addI (x : Reg)
  /-- `LD F, Vx` (R143) -/
  | ldF (x : Reg)
  /-- `LD B, Vx` (R144) -/
  | ldB (x : Reg)
  /-- `LD [I], Vx` (R145) -/
  | store (x : Reg)
  /-- `LD Vx, [I]` (R146) -/
  | load (x : Reg)
deriving DecidableEq, Repr

end Sys2Proof
end

