-- ==== Sys2Proof/WellFormed.lean ====
section
/-! DEFINITION. Which terms of `Instr` an opcode stands for. Every operand field admits every value of
its width (30_encoding.md R62), so the one check is that of `SYS`: the words 0x00E0 and 0x00EE are
`CLS` and `RET` by the table's order (R63, R67, 41_control_flow.md R102). -/

namespace Sys2Proof

/-- The instruction has an opcode that decodes to it (R63, R64, R67). -/
def WellFormed : Instr → Bool
  | .sys nnn => nnn != 0x0E0 && nnn != 0x0EE
  | .cls | .ret | .jp _ | .call _ | .seLit _ _ | .sneLit _ _ | .seReg _ _ | .ldLit _ _
  | .addLit _ _ | .ldReg _ _ | .orReg _ _ | .andReg _ _ | .xorReg _ _ | .addReg _ _ | .sub _ _
  | .shr _ _ | .subn _ _ | .shl _ _ | .sneReg _ _ | .ldI _ | .jpV0 _ | .rnd _ _ | .drw _ _ _
  | .skp _ | .sknp _ | .ldFromDt _ | .ldKey _ | .ldDt _ | .ldSt _ | .addI _ | .ldF _ | .ldB _
  | .store _ | .load _ => true

end Sys2Proof
end

