-- ==== Sys2Proof/Decode.lean ====
section
/-! DEFINITION. The decoder (30_encoding.md R60 to R66): an ordered table of pattern and mask, first
match wins, no match is rejected by name; and the encoder, written from the same table. -/

namespace Sys2Proof

/-! ### The operand fields (R62) -/

/-- `nnn`: `opcode & 0x0FFF`. -/
def fieldNnn (w : Opcode) : Addr := w.extractLsb' 0 12

/-- `x`: `(opcode >> 8) & 0xF`. -/
def fieldX (w : Opcode) : Reg := w.extractLsb' 8 4

/-- `y`: `(opcode >> 4) & 0xF`. -/
def fieldY (w : Opcode) : Reg := w.extractLsb' 4 4

/-- `kk`: `opcode & 0xFF`. -/
def fieldKk (w : Opcode) : Byte := w.extractLsb' 0 8

/-- `n`: `opcode & 0xF`. -/
def fieldN (w : Opcode) : Nibble := w.extractLsb' 0 4

/-! ### The opcode map (R63, R64) -/

/-- An entry of the ordered opcode table: it takes the opcodes `w` with `w & mask = pattern`. -/
structure Row where
  pattern : Opcode
  mask : Opcode
  /-- The instruction, with its operands taken from the opcode. -/
  make : Opcode → Instr

/-- Rows 1 to 10 of R64. -/
def rows1 : List Row :=
  [⟨0x00E0, 0xFFFF, fun _ => .cls⟩,
   ⟨0x00EE, 0xFFFF, fun _ => .ret⟩,
   ⟨0x0000, 0xF000, fun w => .sys (fieldNnn w)⟩,
   ⟨0x1000, 0xF000, fun w => .jp (fieldNnn w)⟩,
   ⟨0x2000, 0xF000, fun w => .call (fieldNnn w)⟩,
   ⟨0x3000, 0xF000, fun w => .seLit (fieldX w) (fieldKk w)⟩,
   ⟨0x4000, 0xF000, fun w => .sneLit (fieldX w) (fieldKk w)⟩,
   ⟨0x5000, 0xF00F, fun w => .seReg (fieldX w) (fieldY w)⟩,
   ⟨0x6000, 0xF000, fun w => .ldLit (fieldX w) (fieldKk w)⟩,
   ⟨0x7000, 0xF000, fun w => .addLit (fieldX w) (fieldKk w)⟩]

/-- Rows 11 to 20 of R64. -/
def rows2 : List Row :=
  [⟨0x8000, 0xF00F, fun w => .ldReg (fieldX w) (fieldY w)⟩,
   ⟨0x8001, 0xF00F, fun w => .orReg (fieldX w) (fieldY w)⟩,
   ⟨0x8002, 0xF00F, fun w => .andReg (fieldX w) (fieldY w)⟩,
   ⟨0x8003, 0xF00F, fun w => .xorReg (fieldX w) (fieldY w)⟩,
   ⟨0x8004, 0xF00F, fun w => .addReg (fieldX w) (fieldY w)⟩,
   ⟨0x8005, 0xF00F, fun w => .sub (fieldX w) (fieldY w)⟩,
   ⟨0x8006, 0xF00F, fun w => .shr (fieldX w) (fieldY w)⟩,
   ⟨0x8007, 0xF00F, fun w => .subn (fieldX w) (fieldY w)⟩,
   ⟨0x800E, 0xF00F, fun w => .shl (fieldX w) (fieldY w)⟩,
   ⟨0x9000, 0xF00F, fun w => .sneReg (fieldX w) (fieldY w)⟩]

/-- Rows 21 to 35 of R64. -/
def rows3 : List Row :=
  [⟨0xA000, 0xF000, fun w => .ldI (fieldNnn w)⟩,
   ⟨0xB000, 0xF000, fun w => .jpV0 (fieldNnn w)⟩,
   ⟨0xC000, 0xF000, fun w => .rnd (fieldX w) (fieldKk w)⟩,
   ⟨0xD000, 0xF000, fun w => .drw (fieldX w) (fieldY w) (fieldN w)⟩,
   ⟨0xE09E, 0xF0FF, fun w => .skp (fieldX w)⟩,
   ⟨0xE0A1, 0xF0FF, fun w => .sknp (fieldX w)⟩,
   ⟨0xF007, 0xF0FF, fun w => .ldFromDt (fieldX w)⟩,
   ⟨0xF00A, 0xF0FF, fun w => .ldKey (fieldX w)⟩,
   ⟨0xF015, 0xF0FF, fun w => .ldDt (fieldX w)⟩,
   ⟨0xF018, 0xF0FF, fun w => .ldSt (fieldX w)⟩,
   ⟨0xF01E, 0xF0FF, fun w => .addI (fieldX w)⟩,
   ⟨0xF029, 0xF0FF, fun w => .ldF (fieldX w)⟩,
   ⟨0xF033, 0xF0FF, fun w => .ldB (fieldX w)⟩,
   ⟨0xF055, 0xF0FF, fun w => .store (fieldX w)⟩,
   ⟨0xF065, 0xF0FF, fun w => .load (fieldX w)⟩]

/-- The 35 entries in decode order (R64): the two full masks stand before `SYS`, the one place where
the order matters (R63). -/
def opcodeTable : List Row := rows1 ++ rows2 ++ rows3

/-- The row takes the opcode: `(opcode & mask) == pattern` (R63). -/
def rowMatches (w : Opcode) (r : Row) : Bool := w &&& r.mask == r.pattern

/-- Why the decoder rejects. -/
inductive Reject where
  /-- No row of the table matches (R66). -/
  | unknownOpcode
  /-- Fewer than the two bytes of an opcode were given (R60). -/
  | truncated
deriving DecidableEq, Repr

/-- `decode(opcode)`: the first row that matches gives the instruction; no match is an unknown opcode
(R63, R66). It looks at the 16 bits alone (R60, R68). -/
def decode (w : Opcode) : Except Reject Instr :=
  match opcodeTable.find? (rowMatches w) with
  | some r => .ok (r.make w)
  | none => .error .unknownOpcode

/-- The opcode of two consecutive bytes: the one at the lower address is the high byte (R42).
UNVERIFIED: the spec takes the byte order from general knowledge (D1); log 5. -/
def joinBytes (hi lo : Byte) : Opcode := hi ++ lo

/-- Decoding a sequence of bytes: the instruction in its first two, and the bytes after it. -/
def decodeBytes : List Byte → Except Reject (Instr × List Byte)
  | hi :: lo :: rest =>
    match decode (joinBytes hi lo) with
    | .ok i => .ok (i, rest)
    | .error e => .error e
  | [_] => .error .truncated
  | [] => .error .truncated

/-! ### The encoder (R61, R64) -/

/-- Format `nnn`: a top nibble and the address. -/
def formNnn (top : BitVec 4) (nnn : Addr) : Opcode := top ++ nnn

/-- Format `xkk`: a top nibble, a register, a byte. -/
def formXkk (top : BitVec 4) (x : Reg) (kk : Byte) : Opcode := top ++ x ++ kk

/-- Format `xy`: a top nibble, two registers, a low nibble. -/
def formXy (top : BitVec 4) (x y : Reg) (low : BitVec 4) : Opcode := top ++ x ++ y ++ low

/-- Format `xyn`: a top nibble, two registers, the sprite height. -/
def formXyn (top : BitVec 4) (x y : Reg) (n : Nibble) : Opcode := top ++ x ++ y ++ n

/-- Format `x`: a top nibble, a register, a low byte. -/
def formX (top : BitVec 4) (x : Reg) (low : BitVec 8) : Opcode := top ++ x ++ low

/-- The opcode of an instruction, from the column "form" of R64. -/
def encode : Instr → Opcode
  | .cls => 0x00E0
  | .ret => 0x00EE
  | .sys nnn => formNnn 0x0 nnn
  | .jp nnn => formNnn 0x1 nnn
  | .call nnn => formNnn 0x2 nnn
  | .seLit x kk => formXkk 0x3 x kk
  | .sneLit x kk => formXkk 0x4 x kk
  | .seReg x y => formXy 0x5 x y 0x0
  | .ldLit x kk => formXkk 0x6 x kk
  | .addLit x kk => formXkk 0x7 x kk
  | .ldReg x y => formXy 0x8 x y 0x0
  | .orReg x y => formXy 0x8 x y 0x1
  | .andReg x y => formXy 0x8 x y 0x2
  | .xorReg x y => formXy 0x8 x y 0x3
  | .addReg x y => formXy 0x8 x y 0x4
  | .sub x y => formXy 0x8 x y 0x5
  | .shr x y => formXy 0x8 x y 0x6
  | .subn x y => formXy 0x8 x y 0x7
  | .shl x y => formXy 0x8 x y 0xE
  | .sneReg x y => formXy 0x9 x y 0x0
  | .ldI nnn => formNnn 0xA nnn
  | .jpV0 nnn => formNnn 0xB nnn
  | .rnd x kk => formXkk 0xC x kk
  | .drw x y n => formXyn 0xD x y n
  | .skp x => formX 0xE x 0x9E
  | .sknp x => formX 0xE x 0xA1
  | .ldFromDt x => formX 0xF x 0x07
  | .ldKey x => formX 0xF x 0x0A
  | .ldDt x => formX 0xF x 0x15
  | .ldSt x => formX 0xF x 0x18
  | .addI x => formX 0xF x 0x1E
  | .ldF x => formX 0xF x 0x29
  | .ldB x => formX 0xF x 0x33
  | .store x => formX 0xF x 0x55
  | .load x => formX 0xF x 0x65

/-! ### Words numbered as spec/opcode_table.json numbers them -/

/-- The bytes, as RAM holds them, of an instruction whose bits are `w`: one 16-bit word, high byte
first (R42). Bits from `nbits` on are zero. -/
def tableBytes (nbits w : Nat) : List Byte :=
  let word : Opcode := BitVec.ofNat 16 (w % 2 ^ nbits)
  [word.extractLsb' 8 8, word.extractLsb' 0 8]

/-- The instruction the decoder reads from the table's word `w`. -/
def decodeTableWord (nbits w : Nat) : Option Instr :=
  match decodeBytes (tableBytes nbits w) with
  | .ok (i, _) => some i
  | .error _ => none

end Sys2Proof
end

