-- ==== Sys2Proof/Config.lean ====
section
/-! DEFINITION. What an implementation fixes (00_scope.md R5, R6), the font table (20_memory.md R47),
and the free values: the inputs that the spec puts under no law. -/

namespace Sys2Proof

/-- The four parameters the source leaves to the implementation (R6). A machine carries them in
`State.config`, so a statement about every state holds for every setting of them. -/
structure Params where
  /-- `STACK_DEPTH`: how many return addresses the stack holds, at least 1 (R16). -/
  stackDepth : Nat
  /-- `TIMER_DIVIDER`: how many steps one tick takes, at least 1 (R90). -/
  timerDivider : Nat
  /-- `SHIFT_USES_VY`: whether `SHR` and `SHL` shift `Vy` (true) or `Vx` (R129, R131). -/
  shiftUsesVy : Bool
  /-- `BLOCK_INCLUSIVE`: whether the block transfers move `Vx` itself (R145, R146). -/
  blockInclusive : Bool
deriving DecidableEq, Repr

namespace Config

/-- The defaults of R6. -/
def defaults : Params :=
  { stackDepth := 16, timerDivider := 8, shiftUsesVy := true, blockInclusive := true }

/-- `RAM_SIZE`: addresses 0x000 to 0xFFF (R5). -/
def ramSize : Nat := 4096

/-- `PC_RESET` (R5). -/
def pcReset : Addr := 0x200

/-- The base address of a load for which the host gives none (R46, R192). -/
def loadBase : Nat := 0x200

/-- The glyphs 0 to 7 of the font (R47). UNVERIFIED: the spec takes the bytes from general
knowledge (D3); log 4. -/
def fontLow : List Byte :=
  [0xF0, 0x90, 0x90, 0x90, 0xF0,
   0x20, 0x60, 0x20, 0x20, 0x70,
   0xF0, 0x10, 0xF0, 0x80, 0xF0,
   0xF0, 0x10, 0xF0, 0x10, 0xF0,
   0x90, 0x90, 0xF0, 0x10, 0x10,
   0xF0, 0x80, 0xF0, 0x10, 0xF0,
   0xF0, 0x80, 0xF0, 0x90, 0xF0,
   0xF0, 0x10, 0x20, 0x40, 0x40]

/-- The glyphs 8 to F of the font (R47). -/
def fontHigh : List Byte :=
  [0xF0, 0x90, 0xF0, 0x90, 0xF0,
   0xF0, 0x90, 0xF0, 0x10, 0xF0,
   0xF0, 0x90, 0xF0, 0x90, 0x90,
   0xE0, 0x90, 0xE0, 0x90, 0xE0,
   0xF0, 0x80, 0x80, 0x80, 0xF0,
   0xE0, 0x90, 0x90, 0x90, 0xE0,
   0xF0, 0x80, 0xF0, 0x80, 0xF0,
   0xF0, 0x80, 0xF0, 0x80, 0x80]

/-- The font table: glyph `d` is the five bytes from address `5 * d` on, top row first (R47). -/
def font : List Byte := fontLow ++ fontHigh

/-- The key input of the `n`-th step where the host has not fixed it: none or any key (R182, I9).
A free value: nothing constrains it (log 1). -/
opaque freeKey : Nat → Option Key

/-- The random byte of the `n`-th step where the host has not fixed it: any byte, under no law
(R6, R132, I6). A free value: nothing constrains it (log 1). -/
opaque freeRnd : Nat → Byte

end Config
end Sys2Proof
end

