-- ==== Sys2Proof/Machine/State.lean ====
section
/-! DEFINITION. The state of the machine as plain data (10_state.md), its faults (60_exceptions.md
R170) and its value after reset (R25, R190). -/

namespace Sys2Proof.Machine

/-- The RAM as the list of its cells that differ from the reset contents (R11, R25): addresses strictly
rising, all below 4096, no cell equal to what an unlisted address reads as. -/
abbrev Memory := List Host.Cell

/-- The frame buffer: 32 rows of 64 pixels, `true` for lit (R19). -/
abbrev Display := Vector (Vector Bool 64) 32

/-- The two states of the key wait (R21). -/
inductive Wait where
  /-- The machine fetches and executes. -/
  | running
  /-- The machine is blocked until a key arrives, which goes to register `x`. -/
  | waitingForKey (x : Reg)
deriving DecidableEq, Repr

/-- What the host supplies with one step: the key it reports, if any, and the random byte (R182). -/
structure HostInput where
  /-- `key_in` -/
  key : Option Key
  /-- `rnd` -/
  rnd : Byte
deriving DecidableEq, Repr

/-- The machine state: the eleven components of R10, then three fields of the model's own. -/
structure State where
  /-- `ram` (R11) -/
  ram : Memory
  /-- `V0` to `VF` (R12, R13) -/
  v : Vector Byte 16
  /-- `pc` (R14) -/
  pc : Addr
  /-- `I` (R15) -/
  idx : Addr
  /-- `stack`, oldest entry first (R16) -/
  stack : List Addr
  /-- `dt` (R18) -/
  dt : Byte
  /-- `st` (R18) -/
  st : Byte
  /-- `display` (R19) -/
  display : Display
  /-- `pressedKey` (R20) -/
  pressedKey : Option Key
  /-- `wait` (R21) -/
  wait : Wait
  /-- `tickPhase` (R22) -/
  tickPhase : Nat
  /-- The parameters of this machine (R6); no step changes them. The model's own field, log 2. -/
  config : Params
  /-- The inputs of the coming steps as far as the host has chosen them, the next one first; beyond
  them every input is free. The model's own field, log 1. -/
  hostIn : List HostInput
  /-- How many steps have completed: it numbers the free inputs. The model's own field, log 1. -/
  inputCount : Nat
deriving DecidableEq, Repr

/-- The named faults (R170). A fault ends the step or the load that raised it and changes no state
(R171); as an outcome it carries no state, the state of record being the one before. -/
inductive Fault where
  /-- Raised by decode: no row of the opcode table matches (R66). The spec's own fault: safe. -/
  | unknownOpcode
  /-- Raised by `RET` with an empty stack (R101). The spec's own fault: safe. -/
  | stackUnderflow
  /-- Raised by `CALL` with `STACK_DEPTH` entries on the stack (R103). The spec's own fault: safe. -/
  | stackOverflow
  /-- Raised by the fetch, by every write of `pc` and by the memory instructions and `DRW`: an address
  or a new `pc` of 4096 or more (R44, R88). The spec's own fault: safe. -/
  | memoryOutOfBounds
  /-- Raised by `LD F, Vx` with `Vx` above 15 (R143). The spec's own fault: safe. -/
  | registerOutOfBounds
  /-- Raised by the host's load only: the image does not fit (R193). The spec's own fault: safe. -/
  | dataOverflow
deriving DecidableEq, Repr

/-- Why the model gives an instruction no meaning. No instruction of this model is refused. -/
inductive Refusal where
  /-- Raised by an arm of `exec` whose instruction has no meaning yet; no arm is such. Safe. -/
  | notModelled (mnemonic : String)
deriving DecidableEq, Repr

/-- What a step, an instruction or a load answers (R80). -/
abbrev Result := Host.Outcome State Fault Refusal

/-- The display with every pixel dark (R19, R151). -/
def darkDisplay : Display := Vector.replicate 32 (Vector.replicate 64 false)

/-- All sixteen registers at 0 (R12). -/
def zeroRegs : Vector Byte 16 := Vector.replicate 16 0

/-- The machine right after reset (R25, R190). The last three fields are the model's own: the
parameters at their defaults (log 2) and no input chosen yet (log 1). -/
def State.reset : State :=
  { ram := []
    v := zeroRegs
    pc := Config.pcReset
    idx := 0
    stack := []
    dt := 0
    st := 0
    display := darkDisplay
    pressedKey := none
    wait := .running
    tickPhase := 0
    config := Config.defaults
    hostIn := []
    inputCount := 0 }

end Sys2Proof.Machine
end

