-- ==== Sys2Proof/Machine/Ops.lean ====
section
/-! DEFINITION. The named operations over memory, registers, `pc`, stack and display; raising a fault;
the tick and the key latch. Every instruction meaning is built from these. -/

namespace Sys2Proof.Machine

/-! ### Faults -/

/-- `raise F` (R171, R176): the operation ends with the fault and no state changes. Fault entry is the
return of the name to the host and nothing else: no register is saved, no mode changes, there is no
vector; and there is no return from a fault (R177). -/
def raise (f : Fault) : Result := .fault f

/-! ### RAM (20_memory.md) -/

/-- What an unlisted cell reads as: the reset contents, the font below 0x050 and 0 above (R25, R47). -/
def Memory.blank (a : Nat) : Byte := Config.font.getD a 0

/-- The byte at an address. -/
def Memory.read (m : Memory) (a : Nat) : Byte :=
  match m with
  | [] => Memory.blank a
  | (b, u) :: rest => if b = a then u else Memory.read rest a

/-- Lists a cell at its place by address. -/
def Memory.insert (a : Nat) (u : Byte) : Memory → Memory
  | [] => [(a, u)]
  | (b, w) :: rest => if a < b then (a, u) :: (b, w) :: rest else (b, w) :: Memory.insert a u rest

/-- The memory with no cell listed at `a`. -/
def Memory.erase (m : Memory) (a : Nat) : Memory := m.filter (fun c => c.1 != a)

/-- A byte store. A cell that takes its reset contents again is no longer listed. -/
def Memory.write (m : Memory) (a : Nat) (u : Byte) : Memory :=
  if u = Memory.blank a then m.erase a else Memory.insert a u (m.erase a)

/-- Bytes stored at rising addresses from `a` on (R41). -/
def Memory.writeList (m : Memory) (a : Nat) : List Byte → Memory
  | [] => m
  | u :: us => Memory.writeList (m.write a u) (a + 1) us

/-- The canonical form of a memory: addresses strictly rising, all inside RAM, no cell listed that
holds its reset contents. -/
abbrev Memory.wf (m : Memory) : Prop :=
  m.Pairwise (fun c d => c.1 < d.1) ∧ ∀ c ∈ m, c.1 < Config.ramSize ∧ c.2 ≠ Memory.blank c.1

/-- The bounds check of R44, made for the whole range before anything is accessed: `count` bytes from
`base` on lie inside RAM. A range of no bytes always does. -/
def rangeInRam (base count : Nat) : Bool := count == 0 || base + (count - 1) < Config.ramSize

/-- The byte `MemRead(a, 1)` gives at an address inside RAM (R8). -/
def readByte (s : State) (a : Nat) : Byte := s.ram.read a

/-- Stores bytes at rising addresses from `base` on (R41); the range has been checked. -/
def storeBytes (base : Nat) (bytes : List Byte) (s : State) : State :=
  { s with ram := s.ram.writeList base bytes }

/-! ### Registers (10_state.md) -/

/-- `V[x]` (R12). -/
def readV (s : State) (x : Reg) : Byte := s.v[x.toNat]'x.isLt

/-- `V[x] <- u` (R12). -/
def writeV (x : Reg) (u : Byte) (s : State) : State := { s with v := s.v.set x.toNat u x.isLt }

/-- `V[15] <- u`: the flag register (R13). -/
def writeVF (u : Byte) (s : State) : State := writeV 0xF u s

/-- `I <- a` (R15). -/
def writeI (a : Addr) (s : State) : State := { s with idx := a }

/-- `dt <- u` (R18). -/
def writeDt (u : Byte) (s : State) : State := { s with dt := u }

/-- `st <- u` (R18). -/
def writeSt (u : Byte) (s : State) : State := { s with st := u }

/-- `wait <- w` (R21). -/
def writeWait (w : Wait) (s : State) : State := { s with wait := w }

/-- The stack with new contents (R16). -/
def writeStack (l : List Addr) (s : State) : State := { s with stack := l }

/-- The display with new contents (R19). -/
def writeDisplay (d : Display) (s : State) : State := { s with display := d }

/-- `pc` with a value already checked (R14). -/
def writePc (a : Addr) (s : State) : State := { s with pc := a }

/-! ### The program counter (40_step_sequencer.md R86 to R88) -/

/-- `pc <- target`: the checked write. A target of 4096 or more faults and is never stored (R88). -/
def jumpTo (target : Nat) (s : State) : Result :=
  if target < Config.ramSize then .next (writePc (BitVec.ofNat 12 target) s)
  else raise .memoryOutOfBounds

/-- `pc <- pc + 2`: the default advance (R86). -/
def advance (s : State) : Result := jumpTo (s.pc.toNat + 2) s

/-- `if taken then pc <- pc + 4 else pc <- pc + 2`, each a checked write (R86, R88). Where both targets
lie in RAM the step completes whatever the condition is, so that case is taken first: the condition
may hang on a free input. The law `skipIf_eq` says it is the plain conditional. -/
def skipIf (taken : Bool) (s : State) : Result :=
  if s.pc.toNat + 4 < Config.ramSize then
    .next (writePc (BitVec.ofNat 12 (s.pc.toNat + bif taken then 4 else 2)) s)
  else if taken then raise .memoryOutOfBounds
  else advance s

/-! ### The stack (10_state.md R16, R17) -/

/-- `push(a)`, then what follows it with the new state. -/
def push (a : Addr) (s : State) (k : State → Result) : Result :=
  if s.stack.length < s.config.stackDepth then k (writeStack (s.stack ++ [a]) s)
  else raise .stackOverflow

/-- `pop()`, then what follows it with the value and the new state. -/
def pop (s : State) (k : Addr → State → Result) : Result :=
  match s.stack.getLast? with
  | some a => k a (writeStack s.stack.dropLast s)
  | none => raise .stackUnderflow

/-! ### The display (44_display.md) -/

/-- `display[r][c]` (R19). -/
def Display.pixel (d : Display) (r : Fin 32) (c : Fin 64) : Bool := d[r][c]

/-- `display[r][c] <- b` (R19). -/
def Display.setPixel (d : Display) (r : Fin 32) (c : Fin 64) (b : Bool) : Display :=
  d.set r (d[r].set c b)

/-- The display row of a row number: mod 32 (R152). -/
def rowOf (k : Nat) : Fin 32 := ⟨k % 32, Nat.mod_lt k (by decide)⟩

/-- The display column of a column number: mod 64 (R152). -/
def colOf (k : Nat) : Fin 64 := ⟨k % 64, Nat.mod_lt k (by decide)⟩

/-- A display and the collision detector's bit, as the loops of R152 carry them. -/
abbrev Canvas := Display × Bool

/-- One pixel of the blit (R152): a sprite bit of 1 inverts the pixel and collides if it was lit; a
sprite bit of 0 does nothing. -/
def blitPixel (bit : Bool) (r : Fin 32) (c : Fin 64) (p : Canvas) : Canvas :=
  if bit then (p.1.setPixel r c (!p.1.pixel r c), p.2 || p.1.pixel r c) else p

/-- One row of the blit: eight pixels from column `cx` on, bit 7 leftmost, each column mod 64 (R152).
UNVERIFIED: the spec takes the bit order from general knowledge (D4); log 6. -/
def blitRow (bits : Byte) (cy cx : Nat) (p : Canvas) : Canvas :=
  (List.range 8).foldl
    (fun q col => blitPixel (bits.getLsbD (7 - col)) (rowOf cy) (colOf (cx + col)) q) p

/-- The blit of the sprite rows in order, from display row `cy` on, each row mod 32 (R152). -/
def blitRows (sprite : List Byte) (cy cx : Nat) (p : Canvas) : Canvas :=
  match sprite with
  | [] => p
  | bits :: rest => blitRows rest (cy + 1) cx (blitRow bits cy cx p)

/-- The `n` sprite bytes from address `base` on, one per row from the top row down (R41, R152). -/
def spriteBytes (s : State) (base n : Nat) : List Byte :=
  (List.range n).map (fun row => readByte s (base + row))

/-! ### The host's inputs of this step (60_exceptions.md R182) -/

/-- The inputs of the coming step: those the host has chosen, else free ones (log 1). -/
def currentInput (s : State) : HostInput :=
  match s.hostIn with
  | inp :: _ => inp
  | [] => { key := Config.freeKey s.inputCount, rnd := Config.freeRnd s.inputCount }

/-- `key_in` (R182). -/
def keyIn (s : State) : Option Key := (currentInput s).key

/-- `rnd` (R182). -/
def rndIn (s : State) : Byte := (currentInput s).rnd

/-- The input of a completed step is spent: the next step has the next one. -/
def spendInput (s : State) : State :=
  { s with hostIn := s.hostIn.tail, inputCount := s.inputCount + 1 }

/-! ### The end of a step (40_step_sequencer.md R90, R91) -/

/-- A timer counts down and stays at 0 (R18). -/
def countDown (u : Byte) : Byte := if u > 0 then u - 1 else u

/-- `Tick` (R90): the phase moves on, and when it wraps to 0 both timers count. -/
def tick (t : State) : State :=
  let phase := (t.tickPhase + 1) % t.config.timerDivider
  { t with
    tickPhase := phase
    dt := if phase = 0 then countDown t.dt else t.dt
    st := if phase = 0 then countDown t.st else t.st }

/-- `pressedKey <- key_in` (R91). -/
def latchKey (k : Option Key) (t : State) : State := { t with pressedKey := k }

/-- What every step that does not fault ends with (R81): the tick, then the latch of this step's key;
and the input is spent. -/
def commit (t : State) : State := spendInput (latchKey (keyIn t) (tick t))

end Sys2Proof.Machine
end

