-- ==== Sys2Proof/Machine/Operands.lean ====
section
/-! DEFINITION. The operand forms (30_encoding.md R62, 43_index_memory.md R140, 42_alu.md R129, R131,
R134, 45_timers_keys.md R160): what an instruction reads before it writes anything. -/

namespace Sys2Proof.Machine

/-- The value a shift shifts: `Vy` where `SHIFT_USES_VY`, else `Vx` (R129, R131). -/
def shiftSource (s : State) (x y : Reg) : Byte :=
  if s.config.shiftUsesVy then readV s y else readV s x

/-- How many registers a block transfer up to `Vx` moves: `V0` to `Vx` where `BLOCK_INCLUSIVE`, else one
fewer, none for `x = 0` (R145, R146). -/
def blockCount (s : State) (x : Reg) : Nat :=
  if s.config.blockInclusive then x.toNat + 1 else x.toNat

/-- The first `count` registers, `V0` first (R145). -/
def firstRegs (s : State) (count : Nat) : List Byte :=
  (List.range count).map (fun k => readV s (BitVec.ofNat 4 k))

/-- The first registers loaded in order with the given bytes, from register `k` on (R146). -/
def loadRegs (k : Nat) (bytes : List Byte) (s : State) : State :=
  match bytes with
  | [] => s
  | u :: us => loadRegs (k + 1) us (writeV (BitVec.ofNat 4 k) u s)

/-- The bytes a block load moves (R146). -/
def blockBytes (s : State) (count : Nat) : List Byte :=
  (List.range count).map (fun k => readByte s (s.idx.toNat + k))

/-- The three decimal digits of a byte, hundreds first (R144). -/
def decimalDigits (u : Byte) : List Byte :=
  [BitVec.ofNat 8 (u.toNat / 100), BitVec.ofNat 8 (u.toNat / 10 % 10), BitVec.ofNat 8 (u.toNat % 10)]

/-- `(I + zext_12(V[x])) mod 4096` (R142). -/
def indexSum (a : Addr) (u : Byte) : Addr := a + u.setWidth 12

/-- `V[0] + nnn`, a 13-bit sum that does not wrap (R109). -/
def indexedTarget (s : State) (nnn : Addr) : Nat := (readV s 0x0).toNat + nnn.toNat

/-- The address of the glyph of a hexadecimal digit: `zext_12(V[x]) * 5` (R143). -/
def glyphAddr (u : Byte) : Addr := u.setWidth 12 * 5

/-- `key_in = some k and zext_8(k) = V[x]`: the key whose code is in the register is pressed (R160). The
whole byte is compared, so a value above 15 is no key. -/
def keyMatches (key : Option Key) (u : Byte) : Bool :=
  match key with
  | some k => k.setWidth 8 == u
  | none => false

end Sys2Proof.Machine
end

