-- ==== Sys2Proof/Machine/Flags.lean ====
section
/-! DEFINITION. The flag values that go to `VF` (10_state.md R13), each 0 or 1. -/

namespace Sys2Proof.Machine

/-- A flag as a register value: 1 or 0. -/
def flagByte (b : Bool) : Byte := bif b then 1 else 0

/-- Carry: `a + b > 255` (R127). -/
def carryFlag (a b : Byte) : Byte := flagByte (decide (a.toNat + b.toNat > 255))

/-- Strictly greater: `a > b`, the flag of `SUB` and, with the operands exchanged, of `SUBN` (R128,
R130). -/
def greaterFlag (a b : Byte) : Byte := flagByte (decide (a.toNat > b.toNat))

/-- Bit 0, the flag of `SHR` (R129). -/
def lowFlag (a : Byte) : Byte := a &&& 1

/-- Bit 7, the flag of `SHL` (R131). -/
def highFlag (a : Byte) : Byte := flagByte (a.getLsbD 7)

/-- Collision, the flag of `DRW` (R152). -/
def collisionFlag (c : Bool) : Byte := flagByte c

end Sys2Proof.Machine
end

