-- ==== Sys2Proof/Machine/Alu.lean ====
section
/-! DEFINITION. The register and ALU instructions (42_alu.md). All operands are read before anything is
written (R120); where an instruction writes `VF` and `V[x]`, the writes happen in the order of its rule,
which matters for `x = 0xF` (R133; UNVERIFIED, the spec's decision D13, log 7). -/

namespace Sys2Proof.Machine

/-- `LD Vx, kk` (R121). -/
def execLdLit (x : Reg) (kk : Byte) (s : State) : Result := advance (writeV x kk s)

/-- `ADD Vx, kk` (R122): mod 256, no flag. -/
def execAddLit (x : Reg) (kk : Byte) (s : State) : Result := advance (writeV x (readV s x + kk) s)

/-- `LD Vx, Vy` (R123). -/
def execLdReg (x y : Reg) (s : State) : Result := advance (writeV x (readV s y) s)

/-- `OR Vx, Vy` (R124): no flag. -/
def execOr (x y : Reg) (s : State) : Result := advance (writeV x (readV s x ||| readV s y) s)

/-- `AND Vx, Vy` (R125): no flag. -/
def execAnd (x y : Reg) (s : State) : Result := advance (writeV x (readV s x &&& readV s y) s)

/-- `XOR Vx, Vy` (R126): no flag. -/
def execXor (x y : Reg) (s : State) : Result := advance (writeV x (readV s x ^^^ readV s y) s)

/-- `ADD Vx, Vy` (R127): the carry goes to `VF`, then the sum to `Vx`. -/
def execAddReg (x y : Reg) (s : State) : Result :=
  let a := readV s x
  let b := readV s y
  advance (writeV x (a + b) (writeVF (carryFlag a b) s))

/-- `SUB Vx, Vy` (R128): the flag goes to `VF`, then the difference to `Vx`. -/
def execSub (x y : Reg) (s : State) : Result :=
  let a := readV s x
  let b := readV s y
  advance (writeV x (a - b) (writeVF (greaterFlag a b) s))

/-- `SHR Vx, Vy` (R129): bit 0 of `Vx` goes to `VF`, then the shifted value to `Vx`. -/
def execShr (x y : Reg) (s : State) : Result :=
  advance (writeV x (shiftSource s x y >>> 1) (writeVF (lowFlag (readV s x)) s))

/-- `SUBN Vx, Vy` (R130): the difference goes to `Vx`, then the flag to `VF`. -/
def execSubn (x y : Reg) (s : State) : Result :=
  let a := readV s x
  let b := readV s y
  advance (writeVF (greaterFlag b a) (writeV x (b - a) s))

/-- `SHL Vx, Vy` (R131): bit 7 of `Vx` goes to `VF`, then the shifted value to `Vx`. -/
def execShl (x y : Reg) (s : State) : Result :=
  advance (writeV x (shiftSource s x y <<< 1) (writeVF (highFlag (readV s x)) s))

/-- `RND Vx, kk` (R132): the step's random byte, masked. -/
def execRnd (x : Reg) (kk : Byte) (s : State) : Result := advance (writeV x (rndIn s &&& kk) s)

end Sys2Proof.Machine
end

