-- ==== Sys2Proof/Machine/ControlFlow.lean ====
section
/-! DEFINITION. The control flow instructions (41_control_flow.md). -/

namespace Sys2Proof.Machine

/-- `RET` (R101): the popped address is that of the `CALL`, so the return goes 2 beyond it. -/
def execRet (s : State) : Result := pop s (fun a t => jumpTo (a.toNat + 2) t)

/-- `SYS nnn` (R102): no operation; `nnn` is ignored. -/
def execSys (_nnn : Addr) (s : State) : Result := advance s

/-- `CALL nnn` (R103): pushes the address of the `CALL` itself. -/
def execCall (nnn : Addr) (s : State) : Result := push s.pc s (fun t => jumpTo nnn.toNat t)

/-- `JP nnn` (R104). -/
def execJp (nnn : Addr) (s : State) : Result := jumpTo nnn.toNat s

/-- `SE Vx, kk` (R105). -/
def execSeLit (x : Reg) (kk : Byte) (s : State) : Result := skipIf (readV s x == kk) s

/-- `SNE Vx, kk` (R106). -/
def execSneLit (x : Reg) (kk : Byte) (s : State) : Result := skipIf (readV s x != kk) s

/-- `SE Vx, Vy` (R107). -/
def execSeReg (x y : Reg) (s : State) : Result := skipIf (readV s x == readV s y) s

/-- `SNE Vx, Vy` (R108). -/
def execSneReg (x y : Reg) (s : State) : Result := skipIf (readV s x != readV s y) s

/-- `JP V0, nnn` (R109): the sum is checked, not wrapped. -/
def execJpV0 (nnn : Addr) (s : State) : Result := jumpTo (indexedTarget s nnn) s

end Sys2Proof.Machine
end

