-- ==== Sys2Proof/Machine/IndexMemory.lean ====
section
/-! DEFINITION. The index register and memory instructions (43_index_memory.md). -/

namespace Sys2Proof.Machine

/-- `LD I, nnn` (R141). -/
def execLdI (nnn : Addr) (s : State) : Result := advance (writeI nnn s)

/-- `ADD I, Vx` (R142): mod 4096, no flag, no fault of its own. -/
def execAddI (x : Reg) (s : State) : Result := advance (writeI (indexSum s.idx (readV s x)) s)

/-- `LD F, Vx` (R143): a value that is no hexadecimal digit faults. -/
def execLdF (x : Reg) (s : State) : Result :=
  if (readV s x).toNat > 15 then raise .registerOutOfBounds
  else advance (writeI (glyphAddr (readV s x)) s)

/-- `LD B, Vx` (R144): the three decimal digits at `I`, `I + 1`, `I + 2`. -/
def execLdB (x : Reg) (s : State) : Result :=
  if rangeInRam s.idx.toNat 3 then
    advance (storeBytes s.idx.toNat (decimalDigits (readV s x)) s)
  else raise .memoryOutOfBounds

/-- `LD [I], Vx` (R145): the registers from `V0` on, at rising addresses; `I` is unchanged. -/
def execStore (x : Reg) (s : State) : Result :=
  let count := blockCount s x
  if rangeInRam s.idx.toNat count then
    advance (storeBytes s.idx.toNat (firstRegs s count) s)
  else raise .memoryOutOfBounds

/-- `LD Vx, [I]` (R146): the registers from `V0` on, from rising addresses; `I` is unchanged. -/
def execLoad (x : Reg) (s : State) : Result :=
  let count := blockCount s x
  if rangeInRam s.idx.toNat count then
    advance (loadRegs 0 (blockBytes s count) s)
  else raise .memoryOutOfBounds

end Sys2Proof.Machine
end

