-- ==== Sys2Proof/Machine/KeysTimers.lean ====
section
/-! DEFINITION. The key and timer instructions (45_timers_keys.md), and the turn of the key wait
(40_step_sequencer.md R82). -/

namespace Sys2Proof.Machine

/-- `SKP Vx` (R160): looks at this step's key, not at the latch. -/
def execSkp (x : Reg) (s : State) : Result := skipIf (keyMatches (keyIn s) (readV s x)) s

/-- `SKNP Vx` (R161): the exact complement of `SKP`. -/
def execSknp (x : Reg) (s : State) : Result := skipIf (!keyMatches (keyIn s) (readV s x)) s

/-- `LD Vx, DT` (R162). -/
def execLdFromDt (x : Reg) (s : State) : Result := advance (writeV x s.dt s)

/-- `LD Vx, K`, its own step (R163): the machine starts to wait; `pc` and `Vx` are not written and this
step's key is not looked at. -/
def execLdKey (x : Reg) (s : State) : Result := .next (writeWait (.waitingForKey x) s)

/-- `LD DT, Vx` (R164). -/
def execLdDt (x : Reg) (s : State) : Result := advance (writeDt (readV s x) s)

/-- `LD ST, Vx` (R165). -/
def execLdSt (x : Reg) (s : State) : Result := advance (writeSt (readV s x) s)

/-- `WaitTurn` (R82): without a key nothing changes; a key goes to `V[x]`, `pc` moves past the
`LD Vx, K` and the machine runs again. -/
def waitTurn (x : Reg) (s : State) : Result :=
  match keyIn s with
  | none => .next s
  | some k => advance (writeWait .running (writeV x (k.setWidth 8) s))

end Sys2Proof.Machine
end

