-- ==== Sys2Proof/Machine/Screen.lean ====
section
/-! DEFINITION. The display instructions (44_display.md). -/

namespace Sys2Proof.Machine

/-- `CLS` (R151): every pixel dark; `VF` is left alone. -/
def execCls (s : State) : Result := advance (writeDisplay darkDisplay s)

/-- `DRW Vx, Vy, n` (R152): the exclusive-or blit of `n` sprite rows from `I` on at column `Vx`, row
`Vy`, both read before `VF` receives the collision bit. `VF` is always written. -/
def execDrw (x y : Reg) (n : Nibble) (s : State) : Result :=
  if rangeInRam s.idx.toNat n.toNat then
    let drawn := blitRows (spriteBytes s s.idx.toNat n.toNat) (readV s y).toNat (readV s x).toNat
      (s.display, false)
    advance (writeVF (collisionFlag drawn.2) (writeDisplay drawn.1 s))
  else raise .memoryOutOfBounds

end Sys2Proof.Machine
end

