-- ==== Sys2Proof/Machine/Sequencer.lean ====
section
/-! DEFINITION. The step sequencer (40_step_sequencer.md R81 to R85, R90, R91): fetch, decode, execute
or a turn of the key wait; then the tick and the key latch. -/

namespace Sys2Proof.Machine

/-- `Fetch(pc)` (R42, R44, R83): the two bytes at `pc` and `pc + 1`, high byte first; then what follows
with the opcode. At `pc` = 0xFFF the second byte is outside RAM. -/
def fetch (s : State) (k : Opcode → Result) : Result :=
  if s.pc.toNat + 1 < Config.ramSize then
    k (joinBytes (readByte s s.pc.toNat) (readByte s (s.pc.toNat + 1)))
  else raise .memoryOutOfBounds

/-- `Decode`, then `Execute` (R84, R85). -/
def runOpcode (s : State) (w : Opcode) : Result :=
  match decode w with
  | .ok i => exec i s
  | .error _ => raise .unknownOpcode

/-- What the step does before its end: a turn of the key wait, which fetches nothing, or one
instruction (R68, R81). -/
def turn (s : State) : Result :=
  match s.wait with
  | .waitingForKey x => waitTurn x s
  | .running => fetch s (runOpcode s)

/-- `Step` (R81): a fault ends it with no change of state (R89), otherwise the result is committed. -/
def runStep (s : State) : Result :=
  match turn s with
  | .next t => .next (commit t)
  | .fault f => .fault f
  | .refused r => .refused r

/-- The state in which the next step fetches the given bytes: they stand at `pc`, and the machine is
not waiting for a key, for a waiting machine fetches nothing (R82). -/
def placeAtPc (bytes : List Byte) (s : State) : State :=
  writeWait .running (storeBytes s.pc.toNat bytes s)

end Sys2Proof.Machine
end

