-- ==== Sys2Proof/Machine/Step.lean ====
section
/-! DEFINITION. The step of the machine, and the placing of an instruction where it fetches. -/

namespace Sys2Proof.Machine

/-- One step (40_step_sequencer.md R81), with the inputs that `currentInput` gives (log 1). -/
def step (s : State) : Host.Outcome State Fault Refusal := runStep s

/-- `s` with the instruction of the table's word `w` where `step` fetches (log 8). -/
def State.withFetchWord (s : State) (nbits w : Nat) : State := placeAtPc (tableBytes nbits w) s

end Sys2Proof.Machine
end

