-- ==== Sys2Proof/Machine/HostInterface.lean ====
section
/-! DEFINITION. The host's operations (60_exceptions.md R183): reset, load, step with chosen inputs,
inspect; the fault codes (R170); and the state of record after an operation (R171). -/

namespace Sys2Proof.Machine

/-- The code of a fault (R170). -/
def faultCode : Fault → BitVec 3
  | .unknownOpcode => 1
  | .stackUnderflow => 2
  | .stackOverflow => 3
  | .memoryOutOfBounds => 4
  | .registerOutOfBounds => 5
  | .dataOverflow => 6

/-- Reset of a machine (R190): every component at its reset value; the model's own fields, which are
no component, stay. -/
def resetMachine (s : State) : State :=
  { State.reset with config := s.config, hostIn := s.hostIn, inputCount := s.inputCount }

/-- `Load(s, bytes, B)` (R192, R193): an image that does not fit faults; otherwise every component but
`ram` takes its reset value, the image is copied to `B` on, and the rest of RAM is kept. A base below
0x200 is carried out all the same (R194). -/
def loadImage (bytes : List Byte) (base : Nat) (s : State) : Result :=
  if bytes.length + base > Config.ramSize then raise .dataOverflow
  else .next (storeBytes base bytes { resetMachine s with ram := s.ram })

/-- `Load(s, bytes)`: the load with no base given, which is at the default base 0x200 (R46, R192). -/
def loadProgram (bytes : List Byte) (s : State) : Result := loadImage bytes Config.loadBase s

/-- A step for which the host supplies the inputs (R80, R81). -/
def stepWith (inp : HostInput) (s : State) : Result := step { s with hostIn := inp :: s.hostIn }

/-- What the read-only accessors show (R186). -/
structure Inspection where
  display : Display
  registers : Vector Byte 16
  programCounter : Addr
  indexRegister : Addr
  delayTimer : Byte
  soundTimer : Byte
  pressedKey : Option Key
deriving DecidableEq, Repr

/-- Inspection reads the state between steps and changes nothing (R186). -/
def inspect (s : State) : Inspection :=
  { display := s.display
    registers := s.v
    programCounter := s.pc
    indexRegister := s.idx
    delayTimer := s.dt
    soundTimer := s.st
    pressedKey := s.pressedKey }

/-- The requests of the host that may change the state (R183). -/
inductive Request where
  /-- reset (R190) -/
  | reset
  /-- `load(state, bytes, baseAddress = 0x200)`, `none` where no base is given (R192) -/
  | load (bytes : List Byte) (base : Option Nat)
  /-- `step(state, pressedKey)`, with the random byte (R80) -/
  | step (inp : HostInput)
deriving DecidableEq, Repr

/-- What a request answers (R183). -/
def serve (r : Request) (s : State) : Result :=
  match r with
  | .reset => .next (resetMachine s)
  | .load bytes none => loadProgram bytes s
  | .load bytes (some base) => loadImage bytes base s
  | .step inp => stepWith inp s

/-- The state of record after an operation on `s` that answered `r`: after a fault it is `s` (R171). -/
def stateOfRecord (s : State) (r : Result) : State :=
  match r with
  | .next t => t
  | .fault _ => s
  | .refused _ => s

/-- The state of record after a list of requests, each served on the one before; a fault is not
latched and the host may go on (R177). -/
def serveAll : List Request → State → State
  | [], s => s
  | r :: rs, s => serveAll rs (stateOfRecord s (serve r s))

end Sys2Proof.Machine
end

