-- ==== Sys2Proof/Safety.lean ====
section
/-! DEFINITION. What the claims speak of: the invariant of 10_state.md R24, which faults an instruction
may raise (60_exceptions.md R172), and the shapes of an instruction's effect. -/

namespace Sys2Proof.Machine

/-- The parameters are ones R6 allows. -/
def paramsOk (p : Params) : Prop := 1 ≤ p.stackDepth ∧ 1 ≤ p.timerDivider

/-- R24, as far as the types of `State` do not say it already: the RAM lists no cell outside 0x000 to
0xFFF and is in canonical form, the stack is no deeper than `STACK_DEPTH`, `tickPhase` is below
`TIMER_DIVIDER`; and the parameters are ones R6 allows. -/
structure Invariant (s : State) : Prop where
  ram : Memory.wf s.ram
  stack : s.stack.length ≤ s.config.stackDepth
  phase : s.tickPhase < s.config.timerDivider
  config : paramsOk s.config

/-- The faults an instruction itself can raise (the table of R172, its rows from `RET` on). -/
def mayRaise : Instr → List Fault
  | .ret => [.stackUnderflow, .memoryOutOfBounds]
  | .call _ => [.stackOverflow]
  | .jp _ => []
  | .jpV0 _ => [.memoryOutOfBounds]
  | .ldKey _ => []
  | .ldF _ => [.registerOutOfBounds, .memoryOutOfBounds]
  | .drw _ _ _ | .ldB _ | .store _ | .load _ => [.memoryOutOfBounds]
  | .seLit _ _ | .sneLit _ _ | .seReg _ _ | .sneReg _ _ | .skp _ | .sknp _ => [.memoryOutOfBounds]
  | .cls | .sys _ | .ldLit _ _ | .addLit _ _ | .ldReg _ _ | .orReg _ _ | .andReg _ _ | .xorReg _ _
  | .addReg _ _ | .sub _ _ | .shr _ _ | .subn _ _ | .shl _ _ | .ldI _ | .rnd _ _ | .ldFromDt _
  | .ldDt _ | .ldSt _ | .addI _ => [.memoryOutOfBounds]

/-! ### The shapes of an instruction's effect

Each says when the instruction completes and what the state is then, every component included
(`t = { s with ... }` with the components named is the frame: all others are those of `s`), and when it
faults. -/

/-- The instruction changes `pc` alone: it goes to `target`, or faults where that is 4096 or more (R86,
R88). -/
def GoesTo (i : Instr) (s : State) (target : Nat) : Prop :=
  (target < 4096 → ∃ t, exec i s = .next t ∧ t.pc.toNat = target ∧ t = { s with pc := t.pc }) ∧
    (4096 ≤ target → exec i s = .fault .memoryOutOfBounds)

/-- The instruction changes general registers and `pc` alone: each register `r` ends as `f r`, `pc` moves
on by 2; it faults where `pc + 2` is 4096 or more, and only there (R86, R88). -/
def SetsRegs (i : Instr) (s : State) (f : Reg → Byte) : Prop :=
  (s.pc.toNat + 2 < 4096 → ∃ t, exec i s = .next t ∧ t.pc.toNat = s.pc.toNat + 2 ∧
      (∀ r, readV t r = f r) ∧ t = { s with v := t.v, pc := t.pc }) ∧
    (4096 ≤ s.pc.toNat + 2 → exec i s = .fault .memoryOutOfBounds)

/-- The instruction moves `pc` on by 2 and otherwise turns `s` into `u`; it faults where `pc + 2` is 4096
or more, and only there (R86, R88). -/
def Becomes (i : Instr) (s u : State) : Prop :=
  (s.pc.toNat + 2 < 4096 → ∃ t, exec i s = .next t ∧ t.pc.toNat = s.pc.toNat + 2 ∧
      t = { u with pc := t.pc }) ∧
    (4096 ≤ s.pc.toNat + 2 → exec i s = .fault .memoryOutOfBounds)

/-- The instruction stores `bytes` at rising addresses from `base` on, moves `pc` on by 2 and changes
nothing else; every address outside those reads as before. It faults, with nothing stored, where the last
address is 4096 or more or `pc + 2` is, and only there (R44, R88). -/
def StoresAt (i : Instr) (s : State) (base : Nat) (bytes : List Byte) : Prop :=
  (base + bytes.length ≤ 4096 ∨ bytes = [] → s.pc.toNat + 2 < 4096 →
      ∃ t, exec i s = .next t ∧ t.pc.toNat = s.pc.toNat + 2 ∧
        (∀ k (h : k < bytes.length), t.ram.read (base + k) = bytes[k]) ∧
        (∀ a, a < base ∨ base + bytes.length ≤ a → t.ram.read a = s.ram.read a) ∧
        t = { s with ram := t.ram, pc := t.pc }) ∧
    (bytes ≠ [] → 4096 < base + bytes.length → exec i s = .fault .memoryOutOfBounds) ∧
    (4096 ≤ s.pc.toNat + 2 → exec i s = .fault .memoryOutOfBounds)

end Sys2Proof.Machine
end

