-- ==== Sys2Proof/Certificates/Slice0/Obligations.lean ====
section
/-! DEFINITION. The statements for the provers, each with the rule of spec/ it formalises. The shapes
`GoesTo`, `SetsRegs`, `Becomes` and `StoresAt` stand in Sys2Proof/Safety.lean. -/

open Sys2Proof Sys2Proof.Machine

/-! ### Encoding (30_encoding.md) -/

/-- R62: the operand fields are the formulas of the table, and nothing else is done to them. -/
def Obligations.OperandFieldFormulas : Prop :=
  ∀ w : Opcode,
    (fieldNnn w).toNat = (w &&& 0x0FFF).toNat ∧
    (fieldX w).toNat = ((w >>> 8) &&& 0xF).toNat ∧
    (fieldY w).toNat = ((w >>> 4) &&& 0xF).toNat ∧
    (fieldKk w).toNat = (w &&& 0xFF).toNat ∧
    (fieldN w).toNat = (w &&& 0xF).toNat

/-- R61 to R64: decoding the opcode of a well-formed instruction gives the instruction back, with
every operand at every value. The patterns are the spec's decision D2 (log 10). -/
def Obligations.DecodeOfEncode : Prop :=
  ∀ i : Instr, WellFormed i = true → decode (encode i) = .ok i

/-- R61 to R64: an opcode that decodes is the opcode of the instruction it decodes to, and that is
well-formed: no opcode has two readings and none is lost. The patterns are the spec's decision D2 (log
10). -/
def Obligations.EncodeOfDecode : Prop :=
  ∀ (w : Opcode) (i : Instr), decode w = .ok i → encode i = w ∧ WellFormed i = true

/-- R66: the opcodes the decoder rejects are exactly those of the table of unknown opcodes, written by
the nibbles `a` (high), `x`, `b`, `c` (low) of the opcode, and it rejects by the one name. The table
is derived in the spec from R64, whose patterns are its decision D2 (log 10). -/
def Obligations.UnknownOpcodesExactly : Prop :=
  ∀ (a x b c : BitVec 4),
    (decode (a ++ x ++ b ++ c : Opcode) = .error .unknownOpcode ↔
      (a = 0x5 ∧ c ≠ 0x0) ∨
      (a = 0x8 ∧ c ∈ [0x8#4, 0x9#4, 0xA#4, 0xB#4, 0xC#4, 0xD#4, 0xF#4]) ∨
      (a = 0x9 ∧ c ≠ 0x0) ∨
      (a = 0xE ∧ (b ++ c : Byte) ≠ 0x9E ∧ (b ++ c : Byte) ≠ 0xA1) ∨
      (a = 0xF ∧ (b ++ c : Byte) ∉ [0x07#8, 0x0A#8, 0x15#8, 0x18#8, 0x1E#8, 0x29#8, 0x33#8, 0x55#8,
        0x65#8])) ∧
    decode (a ++ x ++ b ++ c : Opcode) ≠ .error .truncated

/-- R63: two rows of the table that both take an opcode are the same row, but for the rows of `CLS`
and `RET`, which stand before the row of `SYS` (places 0, 1 and 2). That all other pairs are disjoint
is marked derived in the spec (from R64; decision D2, log 10). -/
def Obligations.TableRowsOverlapOnlyAtSys : Prop :=
  ∀ (j k : Nat) (r q : Row) (w : Opcode), j < k → opcodeTable[j]? = some r →
    opcodeTable[k]? = some q → rowMatches w r = true → rowMatches w q = true →
      (j = 0 ∧ k = 2 ∧ w = 0x00E0) ∨ (j = 1 ∧ k = 2 ∧ w = 0x00EE)

/-- Opcodes of the families, written out from the forms of R64 (vectors EN1 to EN20 of
95_test_vectors.md). The patterns are the spec's decision D2 (log 10). -/
def Obligations.SampleOpcodesDecode : Prop :=
  decode 0x00E0 = .ok .cls ∧ decode 0x00EE = .ok .ret ∧ decode 0x00E1 = .ok (.sys 0x0E1) ∧
  decode 0x5120 = .ok (.seReg 0x1 0x2) ∧ decode 0x812E = .ok (.shl 0x1 0x2) ∧
  decode 0x6A05 = .ok (.ldLit 0xA 0x05) ∧ decode 0xDABC = .ok (.drw 0xA 0xB 0xC) ∧
  decode 0xBFFF = .ok (.jpV0 0xFFF) ∧ decode 0xF165 = .ok (.load 0x1) ∧
  decode 0xE0A1 = .ok (.sknp 0x0) ∧
  decode 0x5001 = .error .unknownOpcode ∧ decode 0xFFFF = .error .unknownOpcode

/-! ### The step (40_step_sequencer.md) -/

/-- R81, R83 to R85, R89: a running machine fetches two bytes, the one at `pc` high; the step of the
instruction they decode to is its `exec` and then `commit`, a fault of it is the step's fault; bytes
that decode to nothing fault `UnknownOpcode`; at `pc` = 0xFFF the fetch faults. The byte order is the
spec's decision D1 (log 5), what `commit` does to the model's own fields log 1 and log 14. -/
def Obligations.StepRunsDecodedInstruction : Prop :=
  ∀ s : State, s.wait = .running →
    (4095 ≤ s.pc.toNat → step s = .fault .memoryOutOfBounds) ∧
    (s.pc.toNat < 4095 → ∀ w : Opcode,
      w = (s.ram.read s.pc.toNat ++ s.ram.read (s.pc.toNat + 1) : Opcode) →
        (∀ e, decode w = .error e → step s = .fault .unknownOpcode) ∧
        (∀ i, decode w = .ok i →
          (∀ u, exec i s = .next u → step s = .next (commit u)) ∧
          (∀ f, exec i s = .fault f → step s = .fault f)))

/-- R90: a step that does not fault, a wait turn included, ends with the tick: `tickPhase` moves on mod
`TIMER_DIVIDER` and, when it becomes 0, each timer above 0 counts down by one from the value the
instruction left. `u` is the state the instruction or the wait turn left. The step's input, which the
model keeps in its own fields, is spent (log 1). That the tick comes last and the phase starts its count
at the wrap are the spec's decisions D10 and D11 (log 18). -/
def Obligations.EveryCompletedStepTicks : Prop :=
  ∀ s t : State, step s = .next t → ∃ u, turn s = .next u ∧
    u.tickPhase = s.tickPhase ∧
    t.tickPhase = (s.tickPhase + 1) % s.config.timerDivider ∧
    (t.tickPhase = 0 →
      t.dt.toNat = u.dt.toNat - 1 ∧ t.st.toNat = u.st.toNat - 1) ∧
    (t.tickPhase ≠ 0 → t.dt = u.dt ∧ t.st = u.st) ∧
    t.hostIn = s.hostIn.tail ∧ t.inputCount = s.inputCount + 1 ∧
    t = { u with tickPhase := t.tickPhase, dt := t.dt, st := t.st, pressedKey := t.pressedKey,
                 hostIn := t.hostIn, inputCount := t.inputCount }

/-- R90, the law of 95_test_vectors.md E7 for every divider and phase: in `TIMER_DIVIDER` ticks in a
row each timer counts down exactly once, and the phase is back where it was. The phase is the spec's
decision D10 (log 18). -/
def Obligations.TimersCountOncePerDivider : Prop :=
  ∀ s : State, s.tickPhase < s.config.timerDivider →
    let t := tick^[s.config.timerDivider] s
    t.dt.toNat = s.dt.toNat - 1 ∧ t.st.toNat = s.st.toNat - 1 ∧ t.tickPhase = s.tickPhase

/-- R91: every step that does not fault ends with this step's key in the latch, and no step's outcome
depends on what the latch held. The latch is the spec's decision D25 (log 18); `keyIn` is the input of
the model's own field or a free value (log 1). -/
def Obligations.KeyLatchIsWrittenAndNeverRead : Prop :=
  (∀ s t : State, step s = .next t → t.pressedKey = keyIn s) ∧
  (∀ (s : State) (k : Option Key), step { s with pressedKey := k } = step s)

/-- R80: a step either completes or faults, with one of the five faults of a step; no instruction is
refused. -/
def Obligations.NoStepIsRefused : Prop :=
  (∀ (i : Instr) (s : State) (r : Refusal), exec i s ≠ .refused r) ∧
  ∀ s : State, (∃ t, step s = .next t) ∨
    ∃ f, step s = .fault f ∧ f ∈ [Fault.unknownOpcode, .stackUnderflow, .stackOverflow,
      .memoryOutOfBounds, .registerOutOfBounds]

/-- R52: an instruction just stored at `pc` is the one the next turn runs. The byte order is the
spec's decision D1 (log 5). -/
def Obligations.FetchSeesStoredOpcode : Prop :=
  ∀ (s : State) (w : Opcode) (i : Instr), s.pc.toNat + 1 < 4096 → s.wait = .running →
    decode w = .ok i →
      let u := storeBytes s.pc.toNat [w.extractLsb' 8 8, w.extractLsb' 0 8] s
      turn u = exec i u

/-- R67, R102: a running machine whose next two bytes are 0 steps over them and nothing else changes
but what every step's end changes. Derived in the spec (R191). -/
def Obligations.ZeroedMemoryIsSteppedOver : Prop :=
  ∀ s : State, s.wait = .running → s.pc.toNat + 2 < 4096 → s.ram.read s.pc.toNat = 0 →
    s.ram.read (s.pc.toNat + 1) = 0 →
      ∃ u, step s = .next (commit u) ∧ u.pc.toNat = s.pc.toNat + 2 ∧ u = { s with pc := u.pc }

/-! ### Control flow (41_control_flow.md) -/

/-- R101. -/
def Obligations.ReturnGoesPastTheCall : Prop :=
  decode 0x00EE = .ok .ret ∧
  ∀ s : State,
    (s.stack = [] → exec .ret s = .fault .stackUnderflow) ∧
    (∀ l a, s.stack = l ++ [a] →
      (a.toNat + 2 < 4096 → ∃ t, exec .ret s = .next t ∧ t.pc.toNat = a.toNat + 2 ∧
        t = { s with stack := l, pc := t.pc }) ∧
      (4096 ≤ a.toNat + 2 → exec .ret s = .fault .memoryOutOfBounds))

/-- R102: `SYS` for every `nnn` but 0x0E0 and 0x0EE is encoded `0nnn`, and it only advances `pc`. That the
terms `.sys 0x0E0` and `.sys 0x0EE`, which no opcode decodes to, do the same is the model's choice
(log 16). -/
def Obligations.SysDoesNothing : Prop :=
  ∀ nnn : Addr, (nnn ≠ 0x0E0 → nnn ≠ 0x0EE → decode (0x0#4 ++ nnn : Opcode) = .ok (.sys nnn)) ∧
    ∀ s : State, GoesTo (.sys nnn) s (s.pc.toNat + 2)

/-- R103. That it raises no other fault is marked derived in the spec (from R62). -/
def Obligations.CallPushesItsOwnAddress : Prop :=
  ∀ nnn : Addr, decode (0x2#4 ++ nnn : Opcode) = .ok (.call nnn) ∧
    ∀ s : State,
      (s.stack.length < s.config.stackDepth →
        exec (.call nnn) s = .next { s with stack := s.stack ++ [s.pc], pc := nnn }) ∧
      (s.config.stackDepth ≤ s.stack.length → exec (.call nnn) s = .fault .stackOverflow)

/-- R104: for every `nnn`, the instruction's own address and odd ones included. That it never faults
is marked derived in the spec (from R62). -/
def Obligations.JumpSetsPc : Prop :=
  ∀ nnn : Addr, decode (0x1#4 ++ nnn : Opcode) = .ok (.jp nnn) ∧
    ∀ s : State, exec (.jp nnn) s = .next { s with pc := nnn }

/-- R105, R106. -/
def Obligations.SkipsOnLiteral : Prop :=
  ∀ (x : Reg) (kk : Byte),
    decode (0x3#4 ++ x ++ kk : Opcode) = .ok (.seLit x kk) ∧
    decode (0x4#4 ++ x ++ kk : Opcode) = .ok (.sneLit x kk) ∧
    ∀ s : State,
      GoesTo (.seLit x kk) s (if readV s x = kk then s.pc.toNat + 4 else s.pc.toNat + 2) ∧
      GoesTo (.sneLit x kk) s (if readV s x ≠ kk then s.pc.toNat + 4 else s.pc.toNat + 2)

/-- R107, R108. -/
def Obligations.SkipsOnRegisters : Prop :=
  ∀ x y : Reg,
    decode (0x5#4 ++ x ++ y ++ 0x0#4 : Opcode) = .ok (.seReg x y) ∧
    decode (0x9#4 ++ x ++ y ++ 0x0#4 : Opcode) = .ok (.sneReg x y) ∧
    ∀ s : State,
      GoesTo (.seReg x y) s (if readV s x = readV s y then s.pc.toNat + 4 else s.pc.toNat + 2) ∧
      GoesTo (.sneReg x y) s (if readV s x ≠ readV s y then s.pc.toNat + 4 else s.pc.toNat + 2)

/-- R109: the 13-bit sum is checked, never reduced mod 4096. -/
def Obligations.IndexedJumpAddsV0 : Prop :=
  ∀ nnn : Addr, decode (0xB#4 ++ nnn : Opcode) = .ok (.jpV0 nnn) ∧
    ∀ s : State, GoesTo (.jpV0 nnn) s ((readV s 0x0).toNat + nnn.toNat)

/-- 95_test_vectors.md E2, from R101 and R103: a call and then a return, with the stack as the call
left it, restore the stack and leave `pc` 2 beyond the call. Derived. -/
def Obligations.CallThenReturnRestores : Prop :=
  ∀ (nnn : Addr) (s : State), s.stack.length < s.config.stackDepth → s.pc.toNat + 2 < 4096 →
    ∃ t, exec (.call nnn) s = .next t ∧ t.pc = nnn ∧
      ∀ t' : State, t'.stack = t.stack → ∃ u, exec .ret t' = .next u ∧ u.stack = s.stack ∧
        u.pc.toNat = s.pc.toNat + 2

/-! ### Registers and ALU (42_alu.md) -/

/-- R121, R123. -/
def Obligations.LoadsAndCopies : Prop :=
  (∀ (x : Reg) (kk : Byte), decode (0x6#4 ++ x ++ kk : Opcode) = .ok (.ldLit x kk) ∧
    ∀ s : State, SetsRegs (.ldLit x kk) s (fun r => if r = x then kk else readV s r)) ∧
  (∀ x y : Reg, decode (0x8#4 ++ x ++ y ++ 0x0#4 : Opcode) = .ok (.ldReg x y) ∧
    ∀ s : State, SetsRegs (.ldReg x y) s (fun r => if r = x then readV s y else readV s r))

/-- R122: mod 256, and no flag: every other register, `VF` among them, keeps its value. -/
def Obligations.AddLiteralWritesNoFlag : Prop :=
  ∀ (x : Reg) (kk : Byte), decode (0x7#4 ++ x ++ kk : Opcode) = .ok (.addLit x kk) ∧
    ∀ s : State, SetsRegs (.addLit x kk) s (fun r =>
      if r = x then BitVec.ofNat 8 (((readV s x).toNat + kk.toNat) % 256) else readV s r)

/-- R124 to R126: bit by bit, and no flag. -/
def Obligations.LogicWritesNoFlag : Prop :=
  ∀ x y : Reg,
    decode (0x8#4 ++ x ++ y ++ 0x1#4 : Opcode) = .ok (.orReg x y) ∧
    decode (0x8#4 ++ x ++ y ++ 0x2#4 : Opcode) = .ok (.andReg x y) ∧
    decode (0x8#4 ++ x ++ y ++ 0x3#4 : Opcode) = .ok (.xorReg x y) ∧
    ∀ s : State,
      SetsRegs (.orReg x y) s (fun r => if r = x then readV s x ||| readV s y else readV s r) ∧
      SetsRegs (.andReg x y) s (fun r => if r = x then readV s x &&& readV s y else readV s r) ∧
      SetsRegs (.xorReg x y) s (fun r => if r = x then readV s x ^^^ readV s y else readV s r)

/-- R127: the sum mod 256 goes to `Vx`, which is written last; else `VF` is the carry. -/
def Obligations.AddWithCarryOut : Prop :=
  ∀ x y : Reg, decode (0x8#4 ++ x ++ y ++ 0x4#4 : Opcode) = .ok (.addReg x y) ∧
    ∀ s : State, SetsRegs (.addReg x y) s (fun r =>
      if r = x then BitVec.ofNat 8 (((readV s x).toNat + (readV s y).toNat) % 256)
      else if r = 0xF then (if (readV s x).toNat + (readV s y).toNat > 255 then 1 else 0)
      else readV s r)

/-- R128: the difference mod 256 goes to `Vx`, which is written last; else `VF` is 1 iff `Vx` was
strictly greater. -/
def Obligations.SubtractSetsStrictlyGreater : Prop :=
  ∀ x y : Reg, decode (0x8#4 ++ x ++ y ++ 0x5#4 : Opcode) = .ok (.sub x y) ∧
    ∀ s : State, SetsRegs (.sub x y) s (fun r =>
      if r = x then BitVec.ofNat 8 (((readV s x).toNat + 256 - (readV s y).toNat) % 256)
      else if r = 0xF then (if (readV s x).toNat > (readV s y).toNat then 1 else 0)
      else readV s r)

/-- R129, for both settings of `SHIFT_USES_VY`: the flag is bit 0 of `Vx`, the value a logical shift
of `Vy` or of `Vx`, written last. That the flag is from `Vx` is the spec's decision D15 and its
conflict C3 (log 13). -/
def Obligations.ShiftRightFlagsBitZero : Prop :=
  ∀ x y : Reg, decode (0x8#4 ++ x ++ y ++ 0x6#4 : Opcode) = .ok (.shr x y) ∧
    ∀ s : State, SetsRegs (.shr x y) s (fun r =>
      if r = x then
        BitVec.ofNat 8 ((if s.config.shiftUsesVy = true then readV s y else readV s x).toNat / 2)
      else if r = 0xF then BitVec.ofNat 8 ((readV s x).toNat % 2)
      else readV s r)

/-- R130: the flag is written last and survives in `VF` also where `x = 0xF`; else `Vx` is the reverse
difference mod 256. -/
def Obligations.ReverseSubtractFlagsLast : Prop :=
  ∀ x y : Reg, decode (0x8#4 ++ x ++ y ++ 0x7#4 : Opcode) = .ok (.subn x y) ∧
    ∀ s : State, SetsRegs (.subn x y) s (fun r =>
      if r = 0xF then (if (readV s y).toNat > (readV s x).toNat then 1 else 0)
      else if r = x then BitVec.ofNat 8 (((readV s y).toNat + 256 - (readV s x).toNat) % 256)
      else readV s r)

/-- R131, for both settings of `SHIFT_USES_VY`: the flag is bit 7 of `Vx`, the value twice `Vy` or
`Vx` mod 256, written last. -/
def Obligations.ShiftLeftFlagsBitSeven : Prop :=
  ∀ x y : Reg, decode (0x8#4 ++ x ++ y ++ 0xE#4 : Opcode) = .ok (.shl x y) ∧
    ∀ s : State, SetsRegs (.shl x y) s (fun r =>
      if r = x then
        BitVec.ofNat 8 ((if s.config.shiftUsesVy = true then readV s y else readV s x).toNat * 2 % 256)
      else if r = 0xF then (if 128 ≤ (readV s x).toNat then 1 else 0)
      else readV s r)

/-- R132: the step's random byte, masked; no flag. The byte is the one the host supplies with the
step, else a free value: the statement holds for every value of it. Where the input comes from is the
model's choice (log 1). -/
def Obligations.RandomByteIsMasked : Prop :=
  ∀ (x : Reg) (kk : Byte), decode (0xC#4 ++ x ++ kk : Opcode) = .ok (.rnd x kk) ∧
    ∀ s : State,
      SetsRegs (.rnd x kk) s (fun r => if r = x then rndIn s &&& kk else readV s r) ∧
      ∀ inp rest, s.hostIn = inp :: rest → rndIn s = inp.rnd

/-- R133: the final value of `VF` for the five instructions that write both the flag and `Vx` where `x
= 0xF`. The order of the writes is the spec's decision D13 (log 7). -/
def Obligations.FlagRegisterAsDestination : Prop :=
  ∀ (y : Reg) (s t : State),
    let a := (readV s 0xF).toNat
    let b := (readV s y).toNat
    let shifted := if s.config.shiftUsesVy = true then b else a
    (exec (.addReg 0xF y) s = .next t → (readV t 0xF).toNat = (a + b) % 256) ∧
    (exec (.sub 0xF y) s = .next t → (readV t 0xF).toNat = (a + 256 - b) % 256) ∧
    (exec (.shr 0xF y) s = .next t → (readV t 0xF).toNat = shifted / 2) ∧
    (exec (.subn 0xF y) s = .next t → (readV t 0xF).toNat = if b > a then 1 else 0) ∧
    (exec (.shl 0xF y) s = .next t → (readV t 0xF).toNat = shifted * 2 % 256)

/-! ### Index register and memory (43_index_memory.md) -/

/-- R141. -/
def Obligations.LoadIndexLiteral : Prop :=
  ∀ nnn : Addr, decode (0xA#4 ++ nnn : Opcode) = .ok (.ldI nnn) ∧
    ∀ s : State, Becomes (.ldI nnn) s { s with idx := nnn }

/-- R142: the sum wraps mod 4096, with no flag and no fault of its own. -/
def Obligations.AddToIndexWraps : Prop :=
  ∀ x : Reg, decode (0xF#4 ++ x ++ 0x1E#8 : Opcode) = .ok (.addI x) ∧
    ∀ s : State, Becomes (.addI x) s
      { s with idx := BitVec.ofNat 12 ((s.idx.toNat + (readV s x).toNat) % 4096) }

/-- R143: a digit points `I` at its glyph; any other value faults, also where the advance would. Which
fault it is is the spec's decision D19. -/
def Obligations.FontPointerOrFault : Prop :=
  ∀ x : Reg, decode (0xF#4 ++ x ++ 0x29#8 : Opcode) = .ok (.ldF x) ∧
    ∀ s : State,
      ((readV s x).toNat ≤ 15 →
        Becomes (.ldF x) s { s with idx := BitVec.ofNat 12 ((readV s x).toNat * 5) }) ∧
      (15 < (readV s x).toNat → exec (.ldF x) s = .fault .registerOutOfBounds)

/-- R144: the three decimal digits, the hundreds at the lowest address; nothing is stored where the
last address is outside RAM. That nothing is stored is the spec's decision D17 (log 12). -/
def Obligations.DecimalDigitsAreStored : Prop :=
  ∀ x : Reg, decode (0xF#4 ++ x ++ 0x33#8 : Opcode) = .ok (.ldB x) ∧
    ∀ s : State, StoresAt (.ldB x) s s.idx.toNat
      [BitVec.ofNat 8 ((readV s x).toNat / 100), BitVec.ofNat 8 ((readV s x).toNat / 10 % 10),
       BitVec.ofNat 8 ((readV s x).toNat % 10)]

/-- R145, for both settings of `BLOCK_INCLUSIVE`: `V0` up to `Vx`, or one register fewer, at rising
addresses from `I` on; `I` and the registers are unchanged. What is moved is the spec's decision D16,
that a fault stores nothing its decision D17 (log 2, log 12). -/
def Obligations.BlockStore : Prop :=
  ∀ x : Reg, decode (0xF#4 ++ x ++ 0x55#8 : Opcode) = .ok (.store x) ∧
    ∀ s : State, StoresAt (.store x) s s.idx.toNat
      ((List.range (if s.config.blockInclusive = true then x.toNat + 1 else x.toNat)).map
        (fun k => readV s (BitVec.ofNat 4 k)))

/-- R146, for both settings of `BLOCK_INCLUSIVE`: `count` registers from `V0` on take the bytes at
rising addresses from `I` on, the others keep their values; nothing is loaded where the last address
is outside RAM. What is moved is the spec's decision D16, the check its decision D17 (log 2, log 12). -/
def Obligations.BlockLoad : Prop :=
  ∀ x : Reg, decode (0xF#4 ++ x ++ 0x65#8 : Opcode) = .ok (.load x) ∧
    ∀ (s : State) (count : Nat),
      count = (if s.config.blockInclusive = true then x.toNat + 1 else x.toNat) →
      (s.idx.toNat + count ≤ 4096 → SetsRegs (.load x) s (fun r =>
        if r.toNat < count then s.ram.read (s.idx.toNat + r.toNat) else readV s r)) ∧
      (4096 < s.idx.toNat + count → exec (.load x) s = .fault .memoryOutOfBounds)

/-! ### Display (44_display.md) -/

/-- R151. -/
def Obligations.ClearScreen : Prop :=
  decode 0x00E0 = .ok .cls ∧
  ∀ s : State, ∃ d : Display, (∀ r c, Display.pixel d r c = false) ∧
    Becomes .cls s { s with display := d }

/-- R152: exactly the pixels that a 1 bit of the sprite falls on are inverted, each row mod 32 and
column mod 64, bit 7 leftmost; `VF` is 1 if a lit pixel went dark, else 0; the coordinates are read
before; it faults, with nothing drawn, where the last sprite byte is outside RAM or `pc + 2` is, and
only there. The bit order is the spec's decision D4 (log 6), the check of the whole range its decision
D17 (log 12). -/
def Obligations.DrawInvertsSpritePixels : Prop :=
  ∀ (x y : Reg) (n : Nibble), decode (0xD#4 ++ x ++ y ++ n : Opcode) = .ok (.drw x y n) ∧
    ∀ s : State,
      (0 < n.toNat → 4096 < s.idx.toNat + n.toNat → exec (.drw x y n) s = .fault .memoryOutOfBounds) ∧
      (4096 ≤ s.pc.toNat + 2 → exec (.drw x y n) s = .fault .memoryOutOfBounds) ∧
      (n.toNat = 0 ∨ s.idx.toNat + n.toNat ≤ 4096 → s.pc.toNat + 2 < 4096 →
        ∃ t, exec (.drw x y n) s = .next t ∧ t.pc.toNat = s.pc.toNat + 2 ∧
          (∀ r c, t.display.pixel r c ≠ s.display.pixel r c ↔
            ∃ row col, row < n.toNat ∧ col < 8 ∧
              (s.ram.read (s.idx.toNat + row)).getLsbD (7 - col) = true ∧
              r.val = ((readV s y).toNat + row) % 32 ∧ c.val = ((readV s x).toNat + col) % 64) ∧
          ((∃ r c, s.display.pixel r c = true ∧ t.display.pixel r c = false) → readV t 0xF = 1) ∧
          ((∀ r c, s.display.pixel r c = true → t.display.pixel r c = true) → readV t 0xF = 0) ∧
          (∀ r, r ≠ 0xF → readV t r = readV s r) ∧
          t = { s with v := t.v, display := t.display, pc := t.pc })

/-- R153: the same sprite drawn again at the same place restores the display; on a dark background the
first draw reports 0, and the second 1 exactly if the sprite has a 1 bit. `t'` is any state with the
display the first draw left and the same sprite, coordinates and index register. The second half is
marked derived in the spec. -/
def Obligations.DrawingTwiceRestores : Prop :=
  ∀ (x y : Reg) (n : Nibble) (s t t' u : State),
    exec (.drw x y n) s = .next t → t'.display = t.display → t'.ram = s.ram → t'.idx = s.idx →
    readV t' x = readV s x → readV t' y = readV s y → exec (.drw x y n) t' = .next u →
      u.display = s.display ∧
      ((∀ r c, s.display.pixel r c = false) →
        readV t 0xF = 0 ∧
        ((∃ row, row < n.toNat ∧ s.ram.read (s.idx.toNat + row) ≠ 0) → readV u 0xF = 1) ∧
        ((∀ row, row < n.toNat → s.ram.read (s.idx.toNat + row) = 0) → readV u 0xF = 0))

/-! ### Keys and timers (45_timers_keys.md) -/

/-- R160, R161: on this step's key, not on the latch; the whole byte is compared. That the whole byte
counts is the spec's decision D20; where the key comes from is the model's choice (log 1). -/
def Obligations.SkipsOnKey : Prop :=
  ∀ x : Reg,
    decode (0xE#4 ++ x ++ 0x9E#8 : Opcode) = .ok (.skp x) ∧
    decode (0xE#4 ++ x ++ 0xA1#8 : Opcode) = .ok (.sknp x) ∧
    ∀ s : State,
      ((∃ k, keyIn s = some k ∧ k.toNat = (readV s x).toNat) →
        GoesTo (.skp x) s (s.pc.toNat + 4) ∧ GoesTo (.sknp x) s (s.pc.toNat + 2)) ∧
      ((∀ k, keyIn s = some k → k.toNat ≠ (readV s x).toNat) →
        GoesTo (.skp x) s (s.pc.toNat + 2) ∧ GoesTo (.sknp x) s (s.pc.toNat + 4)) ∧
      ∀ inp rest, s.hostIn = inp :: rest → keyIn s = inp.key

/-- From R162: the instruction's own effect, `V[x] <- dt`, with `dt` as `exec` finds it. That the tick of
the same step comes after it is the spec's decision D11 (log 18), which `StepRunsDecodedInstruction` and
`EveryCompletedStepTicks` state. -/
def Obligations.ReadDelayTimer : Prop :=
  ∀ x : Reg, decode (0xF#4 ++ x ++ 0x07#8 : Opcode) = .ok (.ldFromDt x) ∧
    ∀ s : State, SetsRegs (.ldFromDt x) s (fun r => if r = x then s.dt else readV s r)

/-- R164, R165. -/
def Obligations.SetTimers : Prop :=
  ∀ x : Reg,
    decode (0xF#4 ++ x ++ 0x15#8 : Opcode) = .ok (.ldDt x) ∧
    decode (0xF#4 ++ x ++ 0x18#8 : Opcode) = .ok (.ldSt x) ∧
    ∀ s : State, Becomes (.ldDt x) s { s with dt := readV s x } ∧
      Becomes (.ldSt x) s { s with st := readV s x }

/-- R163 and R82: `LD Vx, K` only starts the wait; a waiting step fetches nothing; without a key it
changes nothing but what every step's end changes; a key goes to `V[x]`, `pc` moves past the
instruction and the machine runs again; at the end of RAM that turn faults. The fault is the spec's
decision D6 (log 12); where the key comes from is the model's choice (log 1). -/
def Obligations.KeyWait : Prop :=
  ∀ x : Reg, decode (0xF#4 ++ x ++ 0x0A#8 : Opcode) = .ok (.ldKey x) ∧
    (∀ s : State, exec (.ldKey x) s = .next { s with wait := .waitingForKey x }) ∧
    ∀ s : State, s.wait = .waitingForKey x →
      (keyIn s = none → step s = .next (commit s)) ∧
      (∀ k, keyIn s = some k →
        (s.pc.toNat + 2 < 4096 → ∃ u, step s = .next (commit u) ∧
          u.pc.toNat = s.pc.toNat + 2 ∧
          (∀ r, readV u r = if r = x then BitVec.ofNat 8 k.toNat else readV s r) ∧
          u = { s with v := u.v, pc := u.pc, wait := .running }) ∧
        (4096 ≤ s.pc.toNat + 2 → step s = .fault .memoryOutOfBounds))

/-! ### Whole-machine rules -/

/-- R10 to R26 (the access table): which instructions write which component; and none writes
`tickPhase`, the key latch, or the model's own fields. Derived from the rules of the 35 instructions. -/
def Obligations.OnlyTheseInstructionsWrite : Prop :=
  ∀ (i : Instr) (s t : State), exec i s = .next t →
    (t.ram ≠ s.ram → (∃ x, i = .ldB x) ∨ ∃ x, i = .store x) ∧
    (t.idx ≠ s.idx → (∃ nnn, i = .ldI nnn) ∨ (∃ x, i = .addI x) ∨ ∃ x, i = .ldF x) ∧
    (t.stack ≠ s.stack → i = .ret ∨ ∃ nnn, i = .call nnn) ∧
    (t.dt ≠ s.dt → ∃ x, i = .ldDt x) ∧
    (t.st ≠ s.st → ∃ x, i = .ldSt x) ∧
    (t.display ≠ s.display → i = .cls ∨ ∃ x y n, i = .drw x y n) ∧
    (t.wait ≠ s.wait → ∃ x, i = .ldKey x) ∧
    t.tickPhase = s.tickPhase ∧ t.pressedKey = s.pressedKey ∧ t.config = s.config ∧
    t.hostIn = s.hostIn ∧ t.inputCount = s.inputCount

/-- The frame of memory, byte by byte: every instruction but `LD B` and `LD [I]` leaves every byte as it
reads; `LD B` leaves every byte outside `I` to `I + 2`, and `LD [I]` every byte outside the
`blockCount s x` bytes from `I` on that it stores: `x + 1` of them, or `x` (none for `x = 0`) where
`BLOCK_INCLUSIVE` is false (R145; the parameter is the spec's decision D16, log 2). Derived. -/
def Obligations.BytesOutsideStoresAreKept : Prop :=
  ∀ (i : Instr) (s t : State) (a : Nat), exec i s = .next t →
    ((∀ x, i ≠ .ldB x) → (∀ x, i ≠ .store x) → t.ram.read a = s.ram.read a) ∧
    (∀ x, i = .ldB x → a < s.idx.toNat ∨ s.idx.toNat + 3 ≤ a → t.ram.read a = s.ram.read a) ∧
    (∀ x, i = .store x → a < s.idx.toNat ∨ s.idx.toNat + blockCount s x ≤ a →
      t.ram.read a = s.ram.read a)

/-- R13: `VF` changes only in the six instructions that write a flag, or as the destination of an
instruction that names it (a block load up to `VF` among them). -/
def Obligations.OnlyTheseInstructionsWriteTheFlag : Prop :=
  ∀ (i : Instr) (s t : State), exec i s = .next t → readV t 0xF ≠ readV s 0xF →
    (∃ x y, i = .addReg x y) ∨ (∃ x y, i = .sub x y) ∨ (∃ x y, i = .shr x y) ∨
    (∃ x y, i = .subn x y) ∨ (∃ x y, i = .shl x y) ∨ (∃ x y n, i = .drw x y n) ∨
    (∃ kk, i = .ldLit 0xF kk) ∨ (∃ kk, i = .addLit 0xF kk) ∨ (∃ y, i = .ldReg 0xF y) ∨
    (∃ y, i = .orReg 0xF y) ∨ (∃ y, i = .andReg 0xF y) ∨ (∃ y, i = .xorReg 0xF y) ∨
    (∃ kk, i = .rnd 0xF kk) ∨ i = .ldFromDt 0xF ∨ i = .load 0xF

/-- R172: the fault table, in both directions. An instruction raises no fault but those of its row, and each
fault of its row is raised by it in some state that meets the invariant (`JP V0, nnn` with `nnn` below
0xF01 can have no sum of 4096 or more and raises none). A wait turn faults exactly with a key present and
`pc + 2` outside RAM; a fetch exactly at 0xFFF; decode exactly for an unknown opcode; any other fault of a
step is the instruction's. Which out-of-range cases fault is the spec's decisions D6, D7 and D17 (log 12);
where the key comes from, and the invariant's form, are the model's choice (logs 1, 2 and 3). -/
def Obligations.FaultsAreThoseOfTheTable : Prop :=
  (∀ (i : Instr) (s : State) (f : Fault), exec i s = .fault f → f ∈ mayRaise i) ∧
  (∀ (i : Instr) (f : Fault), f ∈ mayRaise i → (∀ nnn, i = .jpV0 nnn → 0xF01 ≤ nnn.toNat) →
    ∃ s, Invariant s ∧ exec i s = .fault f) ∧
  (∀ (nnn : Addr) (s : State) (f : Fault), nnn.toNat < 0xF01 → exec (.jpV0 nnn) s ≠ .fault f) ∧
  (∀ (s : State) (x : Reg) (f : Fault), s.wait = .waitingForKey x →
    (step s = .fault f ↔ f = .memoryOutOfBounds ∧ keyIn s ≠ none ∧ 4096 ≤ s.pc.toNat + 2)) ∧
  (∀ (s : State) (f : Fault), s.wait = .running → (step s = .fault f ↔
    (s.pc = 0xFFF ∧ f = .memoryOutOfBounds) ∨
    (s.pc ≠ 0xFFF ∧ f = .unknownOpcode ∧ ∃ e, decode (joinBytes (s.ram.read s.pc.toNat)
      (s.ram.read (s.pc.toNat + 1))) = .error e) ∨
    (s.pc ≠ 0xFFF ∧ ∃ i, decode (joinBytes (s.ram.read s.pc.toNat)
      (s.ram.read (s.pc.toNat + 1))) = .ok i ∧ exec i s = .fault f)))

/-- From R89, R171 and R177: a request that faults leaves the state of record as it was, so what follows it
is served as if it had not been made, and the same request faults again. The state of record and the
serving of a list of requests are the model's functions `stateOfRecord` and `serveAll` (DESIGN CHOICE,
log 11); that the fault spends no input is its choice as well (log 14). -/
def Obligations.FaultsChangeNothing : Prop :=
  ∀ (q : Request) (rest : List Request) (s : State) (f : Fault), serve q s = .fault f →
    serveAll (q :: rest) s = serveAll rest s ∧ serve q (serveAll [q] s) = .fault f

/-- R132, R182: the random byte of a step is read by `RND` alone: a step that runs no `RND` has the
same outcome whatever it is. Derived; the input is the model's own field (log 1). -/
def Obligations.RandomByteIsReadByRndOnly : Prop :=
  ∀ (s : State) (key : Option Key) (b b' : Byte) (rest : List HostInput),
    (s.wait = .running → ∀ x kk, decode (joinBytes (s.ram.read s.pc.toNat)
      (s.ram.read (s.pc.toNat + 1))) ≠ .ok (.rnd x kk)) →
    step { s with hostIn := ⟨key, b⟩ :: rest } = step { s with hostIn := ⟨key, b'⟩ :: rest }

/-- R160, R161, R82, R182: the key of a step is read by `SKP`, `SKNP` and the wait turn alone: any
other step differs by it in the key latch only. Derived; the input is the model's own field (log 1). -/
def Obligations.KeyIsReadBySkipsAndWaitOnly : Prop :=
  ∀ (s t : State) (k k' : Option Key) (b : Byte) (rest : List HostInput),
    s.wait = .running →
    (∀ x, decode (joinBytes (s.ram.read s.pc.toNat) (s.ram.read (s.pc.toNat + 1))) ≠ .ok (.skp x)) →
    (∀ x, decode (joinBytes (s.ram.read s.pc.toNat) (s.ram.read (s.pc.toNat + 1))) ≠ .ok (.sknp x)) →
    step { s with hostIn := ⟨k, b⟩ :: rest } = .next t →
      step { s with hostIn := ⟨k', b⟩ :: rest } = .next { t with pressedKey := k' }

/-! ### The invariant (10_state.md R24) -/

/-- R24: every step keeps the invariant, from every state that meets it. The canonical form of the RAM
is the model's own (log 3), the parameters are in the state by the model's choice (log 2). -/
def Obligations.StepKeepsInvariant : Prop :=
  ∀ s t : State, Invariant s → step s = .next t → Invariant t

/-- From R24: the state after reset meets the invariant, and so does a machine reset from any state, if its
parameters are ones R6 allows. The canonical form of the RAM (log 3), the parameters in the state (log 2)
and a reset that keeps them (log 14) are the model's choices. -/
def Obligations.ResetMeetsInvariant : Prop :=
  Invariant State.reset ∧ ∀ s : State, paramsOk s.config → Invariant (resetMachine s)

/-- From R24: every state reached from one that meets the invariant, State.reset among them, by any requests
of the host, loads at any base included, meets it. The canonical form of the RAM (log 3), the parameters in
the state (log 2), a reset and a load that keep them (log 14) and the serving on after a fault by
`serveAll` (log 11) are the model's choices. -/
def Obligations.EveryServedStateMeetsInvariant : Prop :=
  Invariant State.reset ∧ ∀ (qs : List Request) (s : State), Invariant s → Invariant (serveAll qs s)

/-- Two memories in canonical form that read the same at every address are equal data (the model's own
representation of R11). -/
def Obligations.CanonicalMemoriesThatReadAlikeAreEqual : Prop :=
  ∀ m m' : Memory, Memory.wf m → Memory.wf m' → (∀ a, m.read a = m'.read a) → m = m'

/-! ### Reset and load (70_reset_and_hazards.md) -/

/-- R25, R190: what reset leaves, whatever was there. The values of `I`, of RAM above the font, of
`pressedKey` and of `tickPhase` are the spec's decisions D22, D25 and D10, the font bytes its decision
D3 (log 4). -/
def Obligations.ResetState : Prop :=
  ∀ s : State, ∀ t ∈ [resetMachine s, State.reset],
    (∀ r, readV t r = 0) ∧ t.pc = 0x200 ∧ t.idx = 0 ∧ t.stack = [] ∧ t.dt = 0 ∧ t.st = 0 ∧
    (∀ r c, t.display.pixel r c = false) ∧ t.pressedKey = none ∧ t.wait = .running ∧
    t.tickPhase = 0 ∧
    (∀ a, 80 ≤ a → t.ram.read a = 0) ∧
    (List.range 80).map t.ram.read =
      [0xF0, 0x90, 0x90, 0x90, 0xF0, 0x20, 0x60, 0x20, 0x20, 0x70, 0xF0, 0x10, 0xF0, 0x80, 0xF0,
       0xF0, 0x10, 0xF0, 0x10, 0xF0, 0x90, 0x90, 0xF0, 0x10, 0x10, 0xF0, 0x80, 0xF0, 0x10, 0xF0,
       0xF0, 0x80, 0xF0, 0x90, 0xF0, 0xF0, 0x10, 0x20, 0x40, 0x40, 0xF0, 0x90, 0xF0, 0x90, 0xF0,
       0xF0, 0x90, 0xF0, 0x10, 0xF0, 0xF0, 0x90, 0xF0, 0x90, 0x90, 0xE0, 0x90, 0xE0, 0x90, 0xE0,
       0xF0, 0x80, 0x80, 0x80, 0xF0, 0xE0, 0x90, 0x90, 0x90, 0xE0, 0xF0, 0x80, 0xF0, 0x80, 0xF0,
       0xF0, 0x80, 0xF0, 0x80, 0x80]

/-- From R193: an image that does not fit, by one byte already, faults and the state of record stays as it
was; one that ends exactly at 0xFFF loads. The state of record is the model's function `stateOfRecord`
(DESIGN CHOICE, log 11). -/
def Obligations.LoadFailsExactlyWhenTooLong : Prop :=
  ∀ (bytes : List Byte) (base : Nat) (s : State),
    (bytes.length + base > 4096 → loadImage bytes base s = .fault .dataOverflow ∧
      stateOfRecord s (loadImage bytes base s) = s) ∧
    (bytes.length + base ≤ 4096 → ∃ t, loadImage bytes base s = .next t)

/-- R192, R193: an image that does not fit faults; one that fits, up to the last byte of RAM, is
copied to its base on, the rest of RAM is kept, and every other component takes its reset value. What
load does to `pc`, `I`, the wait, the phase and the latch is the spec's decision D23 (log 18). -/
def Obligations.LoadCopiesImageAndResets : Prop :=
  ∀ (bytes : List Byte) (base : Nat) (s : State),
    (4096 < bytes.length + base → loadImage bytes base s = .fault .dataOverflow) ∧
    (bytes.length + base ≤ 4096 → ∃ t, loadImage bytes base s = .next t ∧
      (∀ k (h : k < bytes.length), t.ram.read (base + k) = bytes[k]) ∧
      (∀ a, a < base ∨ base + bytes.length ≤ a → t.ram.read a = s.ram.read a) ∧
      (∀ r, readV t r = 0) ∧ t.stack = [] ∧ t.dt = 0 ∧ t.st = 0 ∧
      (∀ r c, t.display.pixel r c = false) ∧
      t.pc = 0x200 ∧ t.idx = 0 ∧ t.wait = .running ∧ t.tickPhase = 0 ∧ t.pressedKey = none)

/-- From R46, R192 and R193: a load for which the host gives no base is the load at 0x200, where the
largest image is 3584 bytes; the image is copied there, `pc` is its first address and the rest of RAM is
kept. That a request may leave the base out as `none` is the model's form (log 15); what load does to `pc`
is the spec's decision D23 (log 18). -/
def Obligations.LoadWithoutBaseIsAt200 : Prop :=
  ∀ (bytes : List Byte) (s : State),
    serve (.load bytes none) s = serve (.load bytes (some 0x200)) s ∧
    (3584 < bytes.length → serve (.load bytes none) s = .fault .dataOverflow) ∧
    (bytes.length ≤ 3584 → ∃ t, serve (.load bytes none) s = .next t ∧ t.pc.toNat = 0x200 ∧
      (∀ k (h : k < bytes.length), t.ram.read (0x200 + k) = bytes[k]) ∧
      (∀ a, a < 0x200 ∨ 0x200 + bytes.length ≤ a → t.ram.read a = s.ram.read a))
end

