-- ==== Sys2Proof/Laws/Memory.lean ====
section
/-! SUPPORT. The laws of RAM: a read after a store gives the byte stored, a store leaves every other
address alone, and every store keeps the canonical form. -/

namespace Sys2Proof.Machine

/-! ### Reading through the parts of a store -/

theorem read_insert (a b : Nat) (u : Byte) (m : Memory) (h : ∀ c ∈ m, c.1 ≠ a) :
    Memory.read (Memory.insert a u m) b = if b = a then u else Memory.read m b := by
  induction m with
  | nil => simp only [Memory.insert, Memory.read]; grind
  | cons c rest ih =>
    obtain ⟨k, w⟩ := c
    have hk : k ≠ a := h (k, w) (by simp)
    have hrest := ih (fun c hc => h c (by simp [hc]))
    simp only [Memory.insert]
    split <;> simp only [Memory.read] <;> grind

theorem read_erase_same (m : Memory) (a : Nat) :
    Memory.read (Memory.erase m a) a = Memory.blank a := by
  induction m with
  | nil => rfl
  | cons c rest ih =>
    obtain ⟨k, w⟩ := c
    by_cases hk : k = a
    · simpa [Memory.erase, hk] using ih
    · simpa [Memory.erase, hk, Memory.read] using ih

theorem read_erase_ne (m : Memory) {a b : Nat} (hb : b ≠ a) :
    Memory.read (Memory.erase m a) b = Memory.read m b := by
  induction m with
  | nil => rfl
  | cons c rest ih =>
    obtain ⟨k, w⟩ := c
    by_cases hk : k = a
    · subst hk
      have hkb : k ≠ b := fun h => hb h.symm
      simpa [Memory.erase, Memory.read, hkb] using ih
    · simp only [Memory.erase, List.filter, bne_iff_ne.mpr hk, Memory.read]
      split
      · rfl
      · exact ih

theorem erase_ne (m : Memory) (a : Nat) : ∀ c ∈ Memory.erase m a, c.1 ≠ a := by
  intro c hc
  simpa using (List.mem_filter.mp hc).2

/-- A byte read after a byte store. -/
theorem read_write (m : Memory) (a b : Nat) (u : Byte) :
    Memory.read (Memory.write m a u) b = if b = a then u else Memory.read m b := by
  unfold Memory.write
  split
  · next hu =>
    split
    · next hb => rw [hb, read_erase_same, hu]
    · next hb => exact read_erase_ne m hb
  · rw [read_insert _ _ _ _ (erase_ne m a)]
    split
    · rfl
    · next hb => exact read_erase_ne m hb

/-- A byte read after stores at rising addresses: the byte stored there, else what was there (R41). -/
theorem read_writeList (m : Memory) (a b : Nat) (us : List Byte) :
    Memory.read (Memory.writeList m a us) b =
      if h : a ≤ b ∧ b < a + us.length then us[b - a]'(by omega) else Memory.read m b := by
  induction us generalizing m a with
  | nil => simp [Memory.writeList]
  | cons u us ih =>
    rw [Memory.writeList, ih]
    by_cases h1 : a + 1 ≤ b ∧ b < a + 1 + us.length
    · have h2 : a ≤ b ∧ b < a + (u :: us).length := by simp; omega
      rw [dif_pos h1, dif_pos h2]
      have h3 : b - a = b - (a + 1) + 1 := by omega
      simp [h3]
    · rw [dif_neg h1, read_write]
      by_cases h2 : b = a
      · subst h2
        simp
      · rw [if_neg h2, dif_neg (by simp; omega)]

/-- Addresses outside the stored range keep their byte. -/
theorem read_writeList_outside (m : Memory) (a b : Nat) (us : List Byte)
    (h : b < a ∨ a + us.length ≤ b) :
    Memory.read (Memory.writeList m a us) b = Memory.read m b := by
  rw [read_writeList, dif_neg (by omega)]

/-- The byte at each stored address. -/
theorem read_writeList_inside (m : Memory) (a k : Nat) (us : List Byte) (h : k < us.length) :
    Memory.read (Memory.writeList m a us) (a + k) = us[k] := by
  rw [read_writeList, dif_pos (by omega)]
  simp

/-! ### The canonical form -/

theorem mem_insert (a : Nat) (u : Byte) (m : Memory) (c : Host.Cell) :
    c ∈ Memory.insert a u m ↔ c = (a, u) ∨ c ∈ m := by
  induction m with
  | nil => simp [Memory.insert]
  | cons d rest ih =>
    obtain ⟨k, w⟩ := d
    simp only [Memory.insert]
    split
    · simp
    · simp only [List.mem_cons, ih]
      tauto

theorem insert_sorted (a : Nat) (u : Byte) (m : Memory) (h : ∀ c ∈ m, c.1 ≠ a)
    (hs : m.Pairwise (fun c d => c.1 < d.1)) :
    (Memory.insert a u m).Pairwise (fun c d => c.1 < d.1) := by
  induction m with
  | nil => simp [Memory.insert]
  | cons d rest ih =>
    obtain ⟨k, w⟩ := d
    have hk : k ≠ a := h (k, w) (by simp)
    rw [List.pairwise_cons] at hs
    simp only [Memory.insert]
    split
    · next hlt =>
      rw [List.pairwise_cons, List.pairwise_cons]
      refine ⟨fun c hc => ?_, hs.1, hs.2⟩
      rcases List.mem_cons.mp hc with rfl | hc
      · exact hlt
      · exact Nat.lt_trans hlt (hs.1 c hc)
    · rw [List.pairwise_cons]
      refine ⟨fun c hc => ?_, ih (fun c hc => h c (by simp [hc])) hs.2⟩
      rcases (mem_insert a u rest c).mp hc with rfl | hc
      · show k < a
        omega
      · exact hs.1 c hc

theorem erase_wf {m : Memory} (a : Nat) (h : Memory.wf m) : Memory.wf (Memory.erase m a) :=
  ⟨h.1.filter _, fun c hc => h.2 c (List.mem_of_mem_filter hc)⟩

/-- A byte store inside RAM keeps the canonical form. -/
theorem write_wf {m : Memory} {a : Nat} (u : Byte) (ha : a < Config.ramSize) (h : Memory.wf m) :
    Memory.wf (Memory.write m a u) := by
  have he := erase_wf a h
  unfold Memory.write
  split
  · exact he
  · next hu =>
    refine ⟨insert_sorted _ _ _ (erase_ne m a) he.1, fun c hc => ?_⟩
    rcases (mem_insert a u _ c).mp hc with rfl | hc
    · exact ⟨ha, hu⟩
    · exact he.2 c hc

/-- Stores at rising addresses inside RAM keep the canonical form. -/
theorem writeList_wf {m : Memory} {a : Nat} (us : List Byte) (ha : a + us.length ≤ Config.ramSize)
    (h : Memory.wf m) : Memory.wf (Memory.writeList m a us) := by
  induction us generalizing m a with
  | nil => exact h
  | cons u us ih =>
    simp only [List.length_cons] at ha
    exact ih (by omega) (write_wf u (by omega) h)

theorem reset_ram_wf : Memory.wf State.reset.ram := by decide

/-- The range check of R44: no byte, or the last byte below 4096. -/
theorem rangeInRam_iff (base count : Nat) :
    rangeInRam base count = true ↔ count = 0 ∨ base + count ≤ Config.ramSize := by
  simp only [rangeInRam, Bool.or_eq_true, beq_iff_eq, decide_eq_true_eq]
  omega

end Sys2Proof.Machine
end

