-- ==== Sys2Proof/Laws/State.lean ====
section
/-! SUPPORT. One lemma per field per state update, and what a register read sees of each update, so that
no proof unfolds a record update. -/

namespace Sys2Proof.Machine

/-! ### `writeV` -/

@[simp] theorem writeV_ram (x : Reg) (u : Byte) (s : State) :
    (writeV x u s).ram = s.ram := rfl
@[simp] theorem writeV_v (x : Reg) (u : Byte) (s : State) :
    (writeV x u s).v = s.v.set x.toNat u x.isLt := rfl
@[simp] theorem writeV_pc (x : Reg) (u : Byte) (s : State) :
    (writeV x u s).pc = s.pc := rfl
@[simp] theorem writeV_idx (x : Reg) (u : Byte) (s : State) :
    (writeV x u s).idx = s.idx := rfl
@[simp] theorem writeV_stack (x : Reg) (u : Byte) (s : State) :
    (writeV x u s).stack = s.stack := rfl
@[simp] theorem writeV_dt (x : Reg) (u : Byte) (s : State) :
    (writeV x u s).dt = s.dt := rfl
@[simp] theorem writeV_st (x : Reg) (u : Byte) (s : State) :
    (writeV x u s).st = s.st := rfl
@[simp] theorem writeV_display (x : Reg) (u : Byte) (s : State) :
    (writeV x u s).display = s.display := rfl
@[simp] theorem writeV_pressedKey (x : Reg) (u : Byte) (s : State) :
    (writeV x u s).pressedKey = s.pressedKey := rfl
@[simp] theorem writeV_wait (x : Reg) (u : Byte) (s : State) :
    (writeV x u s).wait = s.wait := rfl
@[simp] theorem writeV_tickPhase (x : Reg) (u : Byte) (s : State) :
    (writeV x u s).tickPhase = s.tickPhase := rfl
@[simp] theorem writeV_config (x : Reg) (u : Byte) (s : State) :
    (writeV x u s).config = s.config := rfl
@[simp] theorem writeV_hostIn (x : Reg) (u : Byte) (s : State) :
    (writeV x u s).hostIn = s.hostIn := rfl
@[simp] theorem writeV_inputCount (x : Reg) (u : Byte) (s : State) :
    (writeV x u s).inputCount = s.inputCount := rfl
@[simp] theorem readByte_writeV (x : Reg) (u : Byte) (s : State) (j : Nat) :
    readByte (writeV x u s) j = readByte s j := rfl
@[simp] theorem keyIn_writeV (x : Reg) (u : Byte) (s : State) : keyIn (writeV x u s) = keyIn s := rfl
@[simp] theorem rndIn_writeV (x : Reg) (u : Byte) (s : State) : rndIn (writeV x u s) = rndIn s := rfl

/-! ### `writeVF` -/

@[simp] theorem writeVF_ram (u : Byte) (s : State) :
    (writeVF u s).ram = s.ram := rfl
@[simp] theorem writeVF_pc (u : Byte) (s : State) :
    (writeVF u s).pc = s.pc := rfl
@[simp] theorem writeVF_idx (u : Byte) (s : State) :
    (writeVF u s).idx = s.idx := rfl
@[simp] theorem writeVF_stack (u : Byte) (s : State) :
    (writeVF u s).stack = s.stack := rfl
@[simp] theorem writeVF_dt (u : Byte) (s : State) :
    (writeVF u s).dt = s.dt := rfl
@[simp] theorem writeVF_st (u : Byte) (s : State) :
    (writeVF u s).st = s.st := rfl
@[simp] theorem writeVF_display (u : Byte) (s : State) :
    (writeVF u s).display = s.display := rfl
@[simp] theorem writeVF_pressedKey (u : Byte) (s : State) :
    (writeVF u s).pressedKey = s.pressedKey := rfl
@[simp] theorem writeVF_wait (u : Byte) (s : State) :
    (writeVF u s).wait = s.wait := rfl
@[simp] theorem writeVF_tickPhase (u : Byte) (s : State) :
    (writeVF u s).tickPhase = s.tickPhase := rfl
@[simp] theorem writeVF_config (u : Byte) (s : State) :
    (writeVF u s).config = s.config := rfl
@[simp] theorem writeVF_hostIn (u : Byte) (s : State) :
    (writeVF u s).hostIn = s.hostIn := rfl
@[simp] theorem writeVF_inputCount (u : Byte) (s : State) :
    (writeVF u s).inputCount = s.inputCount := rfl
@[simp] theorem readByte_writeVF (u : Byte) (s : State) (j : Nat) :
    readByte (writeVF u s) j = readByte s j := rfl
@[simp] theorem keyIn_writeVF (u : Byte) (s : State) : keyIn (writeVF u s) = keyIn s := rfl
@[simp] theorem rndIn_writeVF (u : Byte) (s : State) : rndIn (writeVF u s) = rndIn s := rfl

/-! ### `writeI` -/

@[simp] theorem writeI_ram (a : Addr) (s : State) :
    (writeI a s).ram = s.ram := rfl
@[simp] theorem writeI_v (a : Addr) (s : State) :
    (writeI a s).v = s.v := rfl
@[simp] theorem writeI_pc (a : Addr) (s : State) :
    (writeI a s).pc = s.pc := rfl
@[simp] theorem writeI_idx (a : Addr) (s : State) :
    (writeI a s).idx = a := rfl
@[simp] theorem writeI_stack (a : Addr) (s : State) :
    (writeI a s).stack = s.stack := rfl
@[simp] theorem writeI_dt (a : Addr) (s : State) :
    (writeI a s).dt = s.dt := rfl
@[simp] theorem writeI_st (a : Addr) (s : State) :
    (writeI a s).st = s.st := rfl
@[simp] theorem writeI_display (a : Addr) (s : State) :
    (writeI a s).display = s.display := rfl
@[simp] theorem writeI_pressedKey (a : Addr) (s : State) :
    (writeI a s).pressedKey = s.pressedKey := rfl
@[simp] theorem writeI_wait (a : Addr) (s : State) :
    (writeI a s).wait = s.wait := rfl
@[simp] theorem writeI_tickPhase (a : Addr) (s : State) :
    (writeI a s).tickPhase = s.tickPhase := rfl
@[simp] theorem writeI_config (a : Addr) (s : State) :
    (writeI a s).config = s.config := rfl
@[simp] theorem writeI_hostIn (a : Addr) (s : State) :
    (writeI a s).hostIn = s.hostIn := rfl
@[simp] theorem writeI_inputCount (a : Addr) (s : State) :
    (writeI a s).inputCount = s.inputCount := rfl
@[simp] theorem readV_writeI (a : Addr) (s : State) (r : Reg) :
    readV (writeI a s) r = readV s r := rfl
@[simp] theorem readByte_writeI (a : Addr) (s : State) (j : Nat) :
    readByte (writeI a s) j = readByte s j := rfl
@[simp] theorem keyIn_writeI (a : Addr) (s : State) : keyIn (writeI a s) = keyIn s := rfl
@[simp] theorem rndIn_writeI (a : Addr) (s : State) : rndIn (writeI a s) = rndIn s := rfl

/-! ### `writeDt` -/

@[simp] theorem writeDt_ram (u : Byte) (s : State) :
    (writeDt u s).ram = s.ram := rfl
@[simp] theorem writeDt_v (u : Byte) (s : State) :
    (writeDt u s).v = s.v := rfl
@[simp] theorem writeDt_pc (u : Byte) (s : State) :
    (writeDt u s).pc = s.pc := rfl
@[simp] theorem writeDt_idx (u : Byte) (s : State) :
    (writeDt u s).idx = s.idx := rfl
@[simp] theorem writeDt_stack (u : Byte) (s : State) :
    (writeDt u s).stack = s.stack := rfl
@[simp] theorem writeDt_dt (u : Byte) (s : State) :
    (writeDt u s).dt = u := rfl
@[simp] theorem writeDt_st (u : Byte) (s : State) :
    (writeDt u s).st = s.st := rfl
@[simp] theorem writeDt_display (u : Byte) (s : State) :
    (writeDt u s).display = s.display := rfl
@[simp] theorem writeDt_pressedKey (u : Byte) (s : State) :
    (writeDt u s).pressedKey = s.pressedKey := rfl
@[simp] theorem writeDt_wait (u : Byte) (s : State) :
    (writeDt u s).wait = s.wait := rfl
@[simp] theorem writeDt_tickPhase (u : Byte) (s : State) :
    (writeDt u s).tickPhase = s.tickPhase := rfl
@[simp] theorem writeDt_config (u : Byte) (s : State) :
    (writeDt u s).config = s.config := rfl
@[simp] theorem writeDt_hostIn (u : Byte) (s : State) :
    (writeDt u s).hostIn = s.hostIn := rfl
@[simp] theorem writeDt_inputCount (u : Byte) (s : State) :
    (writeDt u s).inputCount = s.inputCount := rfl
@[simp] theorem readV_writeDt (u : Byte) (s : State) (r : Reg) :
    readV (writeDt u s) r = readV s r := rfl
@[simp] theorem readByte_writeDt (u : Byte) (s : State) (j : Nat) :
    readByte (writeDt u s) j = readByte s j := rfl
@[simp] theorem keyIn_writeDt (u : Byte) (s : State) : keyIn (writeDt u s) = keyIn s := rfl
@[simp] theorem rndIn_writeDt (u : Byte) (s : State) : rndIn (writeDt u s) = rndIn s := rfl

/-! ### `writeSt` -/

@[simp] theorem writeSt_ram (u : Byte) (s : State) :
    (writeSt u s).ram = s.ram := rfl
@[simp] theorem writeSt_v (u : Byte) (s : State) :
    (writeSt u s).v = s.v := rfl
@[simp] theorem writeSt_pc (u : Byte) (s : State) :
    (writeSt u s).pc = s.pc := rfl
@[simp] theorem writeSt_idx (u : Byte) (s : State) :
    (writeSt u s).idx = s.idx := rfl
@[simp] theorem writeSt_stack (u : Byte) (s : State) :
    (writeSt u s).stack = s.stack := rfl
@[simp] theorem writeSt_dt (u : Byte) (s : State) :
    (writeSt u s).dt = s.dt := rfl
@[simp] theorem writeSt_st (u : Byte) (s : State) :
    (writeSt u s).st = u := rfl
@[simp] theorem writeSt_display (u : Byte) (s : State) :
    (writeSt u s).display = s.display := rfl
@[simp] theorem writeSt_pressedKey (u : Byte) (s : State) :
    (writeSt u s).pressedKey = s.pressedKey := rfl
@[simp] theorem writeSt_wait (u : Byte) (s : State) :
    (writeSt u s).wait = s.wait := rfl
@[simp] theorem writeSt_tickPhase (u : Byte) (s : State) :
    (writeSt u s).tickPhase = s.tickPhase := rfl
@[simp] theorem writeSt_config (u : Byte) (s : State) :
    (writeSt u s).config = s.config := rfl
@[simp] theorem writeSt_hostIn (u : Byte) (s : State) :
    (writeSt u s).hostIn = s.hostIn := rfl
@[simp] theorem writeSt_inputCount (u : Byte) (s : State) :
    (writeSt u s).inputCount = s.inputCount := rfl
@[simp] theorem readV_writeSt (u : Byte) (s : State) (r : Reg) :
    readV (writeSt u s) r = readV s r := rfl
@[simp] theorem readByte_writeSt (u : Byte) (s : State) (j : Nat) :
    readByte (writeSt u s) j = readByte s j := rfl
@[simp] theorem keyIn_writeSt (u : Byte) (s : State) : keyIn (writeSt u s) = keyIn s := rfl
@[simp] theorem rndIn_writeSt (u : Byte) (s : State) : rndIn (writeSt u s) = rndIn s := rfl

/-! ### `writeWait` -/

@[simp] theorem writeWait_ram (w : Wait) (s : State) :
    (writeWait w s).ram = s.ram := rfl
@[simp] theorem writeWait_v (w : Wait) (s : State) :
    (writeWait w s).v = s.v := rfl
@[simp] theorem writeWait_pc (w : Wait) (s : State) :
    (writeWait w s).pc = s.pc := rfl
@[simp] theorem writeWait_idx (w : Wait) (s : State) :
    (writeWait w s).idx = s.idx := rfl
@[simp] theorem writeWait_stack (w : Wait) (s : State) :
    (writeWait w s).stack = s.stack := rfl
@[simp] theorem writeWait_dt (w : Wait) (s : State) :
    (writeWait w s).dt = s.dt := rfl
@[simp] theorem writeWait_st (w : Wait) (s : State) :
    (writeWait w s).st = s.st := rfl
@[simp] theorem writeWait_display (w : Wait) (s : State) :
    (writeWait w s).display = s.display := rfl
@[simp] theorem writeWait_pressedKey (w : Wait) (s : State) :
    (writeWait w s).pressedKey = s.pressedKey := rfl
@[simp] theorem writeWait_wait (w : Wait) (s : State) :
    (writeWait w s).wait = w := rfl
@[simp] theorem writeWait_tickPhase (w : Wait) (s : State) :
    (writeWait w s).tickPhase = s.tickPhase := rfl
@[simp] theorem writeWait_config (w : Wait) (s : State) :
    (writeWait w s).config = s.config := rfl
@[simp] theorem writeWait_hostIn (w : Wait) (s : State) :
    (writeWait w s).hostIn = s.hostIn := rfl
@[simp] theorem writeWait_inputCount (w : Wait) (s : State) :
    (writeWait w s).inputCount = s.inputCount := rfl
@[simp] theorem readV_writeWait (w : Wait) (s : State) (r : Reg) :
    readV (writeWait w s) r = readV s r := rfl
@[simp] theorem readByte_writeWait (w : Wait) (s : State) (j : Nat) :
    readByte (writeWait w s) j = readByte s j := rfl
@[simp] theorem keyIn_writeWait (w : Wait) (s : State) : keyIn (writeWait w s) = keyIn s := rfl
@[simp] theorem rndIn_writeWait (w : Wait) (s : State) : rndIn (writeWait w s) = rndIn s := rfl

/-! ### `writeStack` -/

@[simp] theorem writeStack_ram (l : List Addr) (s : State) :
    (writeStack l s).ram = s.ram := rfl
@[simp] theorem writeStack_v (l : List Addr) (s : State) :
    (writeStack l s).v = s.v := rfl
@[simp] theorem writeStack_pc (l : List Addr) (s : State) :
    (writeStack l s).pc = s.pc := rfl
@[simp] theorem writeStack_idx (l : List Addr) (s : State) :
    (writeStack l s).idx = s.idx := rfl
@[simp] theorem writeStack_stack (l : List Addr) (s : State) :
    (writeStack l s).stack = l := rfl
@[simp] theorem writeStack_dt (l : List Addr) (s : State) :
    (writeStack l s).dt = s.dt := rfl
@[simp] theorem writeStack_st (l : List Addr) (s : State) :
    (writeStack l s).st = s.st := rfl
@[simp] theorem writeStack_display (l : List Addr) (s : State) :
    (writeStack l s).display = s.display := rfl
@[simp] theorem writeStack_pressedKey (l : List Addr) (s : State) :
    (writeStack l s).pressedKey = s.pressedKey := rfl
@[simp] theorem writeStack_wait (l : List Addr) (s : State) :
    (writeStack l s).wait = s.wait := rfl
@[simp] theorem writeStack_tickPhase (l : List Addr) (s : State) :
    (writeStack l s).tickPhase = s.tickPhase := rfl
@[simp] theorem writeStack_config (l : List Addr) (s : State) :
    (writeStack l s).config = s.config := rfl
@[simp] theorem writeStack_hostIn (l : List Addr) (s : State) :
    (writeStack l s).hostIn = s.hostIn := rfl
@[simp] theorem writeStack_inputCount (l : List Addr) (s : State) :
    (writeStack l s).inputCount = s.inputCount := rfl
@[simp] theorem readV_writeStack (l : List Addr) (s : State) (r : Reg) :
    readV (writeStack l s) r = readV s r := rfl
@[simp] theorem readByte_writeStack (l : List Addr) (s : State) (j : Nat) :
    readByte (writeStack l s) j = readByte s j := rfl
@[simp] theorem keyIn_writeStack (l : List Addr) (s : State) : keyIn (writeStack l s) = keyIn s := rfl
@[simp] theorem rndIn_writeStack (l : List Addr) (s : State) : rndIn (writeStack l s) = rndIn s := rfl

/-! ### `writeDisplay` -/

@[simp] theorem writeDisplay_ram (d : Display) (s : State) :
    (writeDisplay d s).ram = s.ram := rfl
@[simp] theorem writeDisplay_v (d : Display) (s : State) :
    (writeDisplay d s).v = s.v := rfl
@[simp] theorem writeDisplay_pc (d : Display) (s : State) :
    (writeDisplay d s).pc = s.pc := rfl
@[simp] theorem writeDisplay_idx (d : Display) (s : State) :
    (writeDisplay d s).idx = s.idx := rfl
@[simp] theorem writeDisplay_stack (d : Display) (s : State) :
    (writeDisplay d s).stack = s.stack := rfl
@[simp] theorem writeDisplay_dt (d : Display) (s : State) :
    (writeDisplay d s).dt = s.dt := rfl
@[simp] theorem writeDisplay_st (d : Display) (s : State) :
    (writeDisplay d s).st = s.st := rfl
@[simp] theorem writeDisplay_display (d : Display) (s : State) :
    (writeDisplay d s).display = d := rfl
@[simp] theorem writeDisplay_pressedKey (d : Display) (s : State) :
    (writeDisplay d s).pressedKey = s.pressedKey := rfl
@[simp] theorem writeDisplay_wait (d : Display) (s : State) :
    (writeDisplay d s).wait = s.wait := rfl
@[simp] theorem writeDisplay_tickPhase (d : Display) (s : State) :
    (writeDisplay d s).tickPhase = s.tickPhase := rfl
@[simp] theorem writeDisplay_config (d : Display) (s : State) :
    (writeDisplay d s).config = s.config := rfl
@[simp] theorem writeDisplay_hostIn (d : Display) (s : State) :
    (writeDisplay d s).hostIn = s.hostIn := rfl
@[simp] theorem writeDisplay_inputCount (d : Display) (s : State) :
    (writeDisplay d s).inputCount = s.inputCount := rfl
@[simp] theorem readV_writeDisplay (d : Display) (s : State) (r : Reg) :
    readV (writeDisplay d s) r = readV s r := rfl
@[simp] theorem readByte_writeDisplay (d : Display) (s : State) (j : Nat) :
    readByte (writeDisplay d s) j = readByte s j := rfl
@[simp] theorem keyIn_writeDisplay (d : Display) (s : State) : keyIn (writeDisplay d s) = keyIn s := rfl
@[simp] theorem rndIn_writeDisplay (d : Display) (s : State) : rndIn (writeDisplay d s) = rndIn s := rfl

/-! ### `writePc` -/

@[simp] theorem writePc_ram (a : Addr) (s : State) :
    (writePc a s).ram = s.ram := rfl
@[simp] theorem writePc_v (a : Addr) (s : State) :
    (writePc a s).v = s.v := rfl
@[simp] theorem writePc_pc (a : Addr) (s : State) :
    (writePc a s).pc = a := rfl
@[simp] theorem writePc_idx (a : Addr) (s : State) :
    (writePc a s).idx = s.idx := rfl
@[simp] theorem writePc_stack (a : Addr) (s : State) :
    (writePc a s).stack = s.stack := rfl
@[simp] theorem writePc_dt (a : Addr) (s : State) :
    (writePc a s).dt = s.dt := rfl
@[simp] theorem writePc_st (a : Addr) (s : State) :
    (writePc a s).st = s.st := rfl
@[simp] theorem writePc_display (a : Addr) (s : State) :
    (writePc a s).display = s.display := rfl
@[simp] theorem writePc_pressedKey (a : Addr) (s : State) :
    (writePc a s).pressedKey = s.pressedKey := rfl
@[simp] theorem writePc_wait (a : Addr) (s : State) :
    (writePc a s).wait = s.wait := rfl
@[simp] theorem writePc_tickPhase (a : Addr) (s : State) :
    (writePc a s).tickPhase = s.tickPhase := rfl
@[simp] theorem writePc_config (a : Addr) (s : State) :
    (writePc a s).config = s.config := rfl
@[simp] theorem writePc_hostIn (a : Addr) (s : State) :
    (writePc a s).hostIn = s.hostIn := rfl
@[simp] theorem writePc_inputCount (a : Addr) (s : State) :
    (writePc a s).inputCount = s.inputCount := rfl
@[simp] theorem readV_writePc (a : Addr) (s : State) (r : Reg) :
    readV (writePc a s) r = readV s r := rfl
@[simp] theorem readByte_writePc (a : Addr) (s : State) (j : Nat) :
    readByte (writePc a s) j = readByte s j := rfl
@[simp] theorem keyIn_writePc (a : Addr) (s : State) : keyIn (writePc a s) = keyIn s := rfl
@[simp] theorem rndIn_writePc (a : Addr) (s : State) : rndIn (writePc a s) = rndIn s := rfl

/-! ### `storeBytes` -/

@[simp] theorem storeBytes_ram (a : Nat) (l : List Byte) (s : State) :
    (storeBytes a l s).ram = s.ram.writeList a l := rfl
@[simp] theorem storeBytes_v (a : Nat) (l : List Byte) (s : State) :
    (storeBytes a l s).v = s.v := rfl
@[simp] theorem storeBytes_pc (a : Nat) (l : List Byte) (s : State) :
    (storeBytes a l s).pc = s.pc := rfl
@[simp] theorem storeBytes_idx (a : Nat) (l : List Byte) (s : State) :
    (storeBytes a l s).idx = s.idx := rfl
@[simp] theorem storeBytes_stack (a : Nat) (l : List Byte) (s : State) :
    (storeBytes a l s).stack = s.stack := rfl
@[simp] theorem storeBytes_dt (a : Nat) (l : List Byte) (s : State) :
    (storeBytes a l s).dt = s.dt := rfl
@[simp] theorem storeBytes_st (a : Nat) (l : List Byte) (s : State) :
    (storeBytes a l s).st = s.st := rfl
@[simp] theorem storeBytes_display (a : Nat) (l : List Byte) (s : State) :
    (storeBytes a l s).display = s.display := rfl
@[simp] theorem storeBytes_pressedKey (a : Nat) (l : List Byte) (s : State) :
    (storeBytes a l s).pressedKey = s.pressedKey := rfl
@[simp] theorem storeBytes_wait (a : Nat) (l : List Byte) (s : State) :
    (storeBytes a l s).wait = s.wait := rfl
@[simp] theorem storeBytes_tickPhase (a : Nat) (l : List Byte) (s : State) :
    (storeBytes a l s).tickPhase = s.tickPhase := rfl
@[simp] theorem storeBytes_config (a : Nat) (l : List Byte) (s : State) :
    (storeBytes a l s).config = s.config := rfl
@[simp] theorem storeBytes_hostIn (a : Nat) (l : List Byte) (s : State) :
    (storeBytes a l s).hostIn = s.hostIn := rfl
@[simp] theorem storeBytes_inputCount (a : Nat) (l : List Byte) (s : State) :
    (storeBytes a l s).inputCount = s.inputCount := rfl
@[simp] theorem readV_storeBytes (a : Nat) (l : List Byte) (s : State) (r : Reg) :
    readV (storeBytes a l s) r = readV s r := rfl
@[simp] theorem keyIn_storeBytes (a : Nat) (l : List Byte) (s : State) : keyIn (storeBytes a l s) = keyIn s := rfl
@[simp] theorem rndIn_storeBytes (a : Nat) (l : List Byte) (s : State) : rndIn (storeBytes a l s) = rndIn s := rfl

/-! ### `spendInput` -/

@[simp] theorem spendInput_ram (s : State) :
    (spendInput s).ram = s.ram := rfl
@[simp] theorem spendInput_v (s : State) :
    (spendInput s).v = s.v := rfl
@[simp] theorem spendInput_pc (s : State) :
    (spendInput s).pc = s.pc := rfl
@[simp] theorem spendInput_idx (s : State) :
    (spendInput s).idx = s.idx := rfl
@[simp] theorem spendInput_stack (s : State) :
    (spendInput s).stack = s.stack := rfl
@[simp] theorem spendInput_dt (s : State) :
    (spendInput s).dt = s.dt := rfl
@[simp] theorem spendInput_st (s : State) :
    (spendInput s).st = s.st := rfl
@[simp] theorem spendInput_display (s : State) :
    (spendInput s).display = s.display := rfl
@[simp] theorem spendInput_pressedKey (s : State) :
    (spendInput s).pressedKey = s.pressedKey := rfl
@[simp] theorem spendInput_wait (s : State) :
    (spendInput s).wait = s.wait := rfl
@[simp] theorem spendInput_tickPhase (s : State) :
    (spendInput s).tickPhase = s.tickPhase := rfl
@[simp] theorem spendInput_config (s : State) :
    (spendInput s).config = s.config := rfl
@[simp] theorem spendInput_hostIn (s : State) :
    (spendInput s).hostIn = s.hostIn.tail := rfl
@[simp] theorem spendInput_inputCount (s : State) :
    (spendInput s).inputCount = s.inputCount + 1 := rfl
@[simp] theorem readV_spendInput (s : State) (r : Reg) :
    readV (spendInput s) r = readV s r := rfl
@[simp] theorem readByte_spendInput (s : State) (j : Nat) :
    readByte (spendInput s) j = readByte s j := rfl

/-! ### `latchKey` -/

@[simp] theorem latchKey_ram (k : Option Key) (s : State) :
    (latchKey k s).ram = s.ram := rfl
@[simp] theorem latchKey_v (k : Option Key) (s : State) :
    (latchKey k s).v = s.v := rfl
@[simp] theorem latchKey_pc (k : Option Key) (s : State) :
    (latchKey k s).pc = s.pc := rfl
@[simp] theorem latchKey_idx (k : Option Key) (s : State) :
    (latchKey k s).idx = s.idx := rfl
@[simp] theorem latchKey_stack (k : Option Key) (s : State) :
    (latchKey k s).stack = s.stack := rfl
@[simp] theorem latchKey_dt (k : Option Key) (s : State) :
    (latchKey k s).dt = s.dt := rfl
@[simp] theorem latchKey_st (k : Option Key) (s : State) :
    (latchKey k s).st = s.st := rfl
@[simp] theorem latchKey_display (k : Option Key) (s : State) :
    (latchKey k s).display = s.display := rfl
@[simp] theorem latchKey_pressedKey (k : Option Key) (s : State) :
    (latchKey k s).pressedKey = k := rfl
@[simp] theorem latchKey_wait (k : Option Key) (s : State) :
    (latchKey k s).wait = s.wait := rfl
@[simp] theorem latchKey_tickPhase (k : Option Key) (s : State) :
    (latchKey k s).tickPhase = s.tickPhase := rfl
@[simp] theorem latchKey_config (k : Option Key) (s : State) :
    (latchKey k s).config = s.config := rfl
@[simp] theorem latchKey_hostIn (k : Option Key) (s : State) :
    (latchKey k s).hostIn = s.hostIn := rfl
@[simp] theorem latchKey_inputCount (k : Option Key) (s : State) :
    (latchKey k s).inputCount = s.inputCount := rfl
@[simp] theorem readV_latchKey (k : Option Key) (s : State) (r : Reg) :
    readV (latchKey k s) r = readV s r := rfl
@[simp] theorem readByte_latchKey (k : Option Key) (s : State) (j : Nat) :
    readByte (latchKey k s) j = readByte s j := rfl
@[simp] theorem keyIn_latchKey (k : Option Key) (s : State) : keyIn (latchKey k s) = keyIn s := rfl
@[simp] theorem rndIn_latchKey (k : Option Key) (s : State) : rndIn (latchKey k s) = rndIn s := rfl

/-! ### `tick` -/

@[simp] theorem tick_ram (s : State) :
    (tick s).ram = s.ram := rfl
@[simp] theorem tick_v (s : State) :
    (tick s).v = s.v := rfl
@[simp] theorem tick_pc (s : State) :
    (tick s).pc = s.pc := rfl
@[simp] theorem tick_idx (s : State) :
    (tick s).idx = s.idx := rfl
@[simp] theorem tick_stack (s : State) :
    (tick s).stack = s.stack := rfl
@[simp] theorem tick_display (s : State) :
    (tick s).display = s.display := rfl
@[simp] theorem tick_pressedKey (s : State) :
    (tick s).pressedKey = s.pressedKey := rfl
@[simp] theorem tick_wait (s : State) :
    (tick s).wait = s.wait := rfl
@[simp] theorem tick_tickPhase (s : State) :
    (tick s).tickPhase = (s.tickPhase + 1) % s.config.timerDivider := rfl
@[simp] theorem tick_config (s : State) :
    (tick s).config = s.config := rfl
@[simp] theorem tick_hostIn (s : State) :
    (tick s).hostIn = s.hostIn := rfl
@[simp] theorem tick_inputCount (s : State) :
    (tick s).inputCount = s.inputCount := rfl
@[simp] theorem readV_tick (s : State) (r : Reg) :
    readV (tick s) r = readV s r := rfl
@[simp] theorem readByte_tick (s : State) (j : Nat) :
    readByte (tick s) j = readByte s j := rfl
@[simp] theorem keyIn_tick (s : State) : keyIn (tick s) = keyIn s := rfl
@[simp] theorem rndIn_tick (s : State) : rndIn (tick s) = rndIn s := rfl

/-- A timer after the tick (R90). -/
@[simp] theorem tick_dt (s : State) :
    (tick s).dt = if (s.tickPhase + 1) % s.config.timerDivider = 0 then countDown s.dt else s.dt := rfl

@[simp] theorem tick_st (s : State) :
    (tick s).st = if (s.tickPhase + 1) % s.config.timerDivider = 0 then countDown s.st else s.st := rfl

/-! ### Registers -/

theorem regIndex_inj {x y : Reg} : x.toNat = y.toNat ↔ x = y := BitVec.toNat_inj

/-- A register read after a register write (R12). -/
theorem readV_writeV (x y : Reg) (u : Byte) (s : State) :
    readV (writeV x u s) y = if y = x then u else readV s y := by
  unfold readV writeV
  simp only [Vector.getElem_set, regIndex_inj, eq_comm (a := x)]

@[simp] theorem readV_writeV_same (x : Reg) (u : Byte) (s : State) :
    readV (writeV x u s) x = u := by
  simp [readV_writeV]

/-- The flag register is register 15 (R13). -/
theorem readV_writeVF (y : Reg) (u : Byte) (s : State) :
    readV (writeVF u s) y = if y = 0xF then u else readV s y := readV_writeV 0xF y u s

@[simp] theorem readV_writeVF_same (u : Byte) (s : State) : readV (writeVF u s) 0xF = u := by
  simp [readV_writeVF]

/-- Two register files that read the same are the same. -/
theorem regs_ext {s t : State} (h : ∀ r : Reg, readV s r = readV t r) : s.v = t.v := by
  apply Vector.ext
  intro k hk
  simpa [readV, Nat.mod_eq_of_lt hk] using h (BitVec.ofNat 4 k)

/-! ### The end of a step (R81, R90, R91) -/

/-- What `commit` leaves: the ticked phase and timers, this step's key in the latch, the input spent,
and everything else as it was. -/
theorem commit_eq (t : State) :
    commit t =
      { t with
        tickPhase := (tick t).tickPhase
        dt := (tick t).dt
        st := (tick t).st
        pressedKey := keyIn t
        hostIn := t.hostIn.tail
        inputCount := t.inputCount + 1 } := rfl

end Sys2Proof.Machine
end

