-- ==== Sys2Proof/Laws/Ops.lean ====
section
/-! SUPPORT. What each shared operation can answer, said once: the checked `pc` write and the advances
built on it, the skip, and the stack operations. -/

namespace Sys2Proof.Machine

/-! ### The checked write of `pc` (R88) -/

theorem jumpTo_of_lt {target : Nat} (s : State) (h : target < Config.ramSize) :
    jumpTo target s = .next (writePc (BitVec.ofNat 12 target) s) := if_pos h

theorem jumpTo_of_ge {target : Nat} (s : State) (h : Config.ramSize ≤ target) :
    jumpTo target s = .fault .memoryOutOfBounds := if_neg (Nat.not_lt.mpr h)

theorem jumpTo_next {target : Nat} {s t : State} :
    jumpTo target s = .next t ↔
      target < Config.ramSize ∧ t = writePc (BitVec.ofNat 12 target) s := by
  rcases Nat.lt_or_ge target Config.ramSize with h | h
  · simp [jumpTo_of_lt s h, h, eq_comm]
  · simp [jumpTo_of_ge s h, Nat.not_lt.mpr h]

theorem jumpTo_fault {target : Nat} {s : State} {f : Fault} :
    jumpTo target s = .fault f ↔ Config.ramSize ≤ target ∧ f = .memoryOutOfBounds := by
  rcases Nat.lt_or_ge target Config.ramSize with h | h
  · simp [jumpTo_of_lt s h, Nat.not_le.mpr h]
  · simp [jumpTo_of_ge s h, h, eq_comm]

theorem jumpTo_not_refused (target : Nat) (s : State) (r : Refusal) :
    jumpTo target s ≠ .refused r := by
  rcases Nat.lt_or_ge target Config.ramSize with h | h
  · simp [jumpTo_of_lt s h]
  · simp [jumpTo_of_ge s h]

/-! ### The default advance (R86) -/

theorem advance_of_lt {s : State} (h : s.pc.toNat + 2 < 4096) :
    advance s = .next (writePc (BitVec.ofNat 12 (s.pc.toNat + 2)) s) := jumpTo_of_lt s h

theorem advance_next {s t : State} :
    advance s = .next t ↔
      s.pc.toNat + 2 < 4096 ∧ t = writePc (BitVec.ofNat 12 (s.pc.toNat + 2)) s := jumpTo_next

theorem advance_fault {s : State} {f : Fault} :
    advance s = .fault f ↔ 4096 ≤ s.pc.toNat + 2 ∧ f = .memoryOutOfBounds := jumpTo_fault

theorem advance_not_refused (s : State) (r : Refusal) : advance s ≠ .refused r :=
  jumpTo_not_refused _ _ r

/-! ### The skip (R86) -/

/-- The skip is the plain conditional of the rules of 41_control_flow.md: two checked writes. -/
theorem skipIf_eq (taken : Bool) (s : State) :
    skipIf taken s = if taken then jumpTo (s.pc.toNat + 4) s else advance s := by
  unfold skipIf
  by_cases h : s.pc.toNat + 4 < Config.ramSize
  · have h2 : s.pc.toNat + 2 < Config.ramSize := by omega
    cases taken <;> simp [h, jumpTo, h2, advance]
  · cases taken <;> simp [h, jumpTo, advance]

theorem skipIf_next {taken : Bool} {s t : State} :
    skipIf taken s = .next t ↔
      s.pc.toNat + (if taken then 4 else 2) < 4096 ∧
        t = writePc (BitVec.ofNat 12 (s.pc.toNat + (if taken then 4 else 2))) s := by
  rw [skipIf_eq]
  cases taken
  · simpa using advance_next
  · exact jumpTo_next

theorem skipIf_fault {taken : Bool} {s : State} {f : Fault} :
    skipIf taken s = .fault f ↔
      4096 ≤ s.pc.toNat + (if taken then 4 else 2) ∧ f = .memoryOutOfBounds := by
  rw [skipIf_eq]
  cases taken
  · simpa using advance_fault
  · exact jumpTo_fault

theorem skipIf_not_refused (taken : Bool) (s : State) (r : Refusal) : skipIf taken s ≠ .refused r := by
  rw [skipIf_eq]
  cases taken
  · exact advance_not_refused s r
  · exact jumpTo_not_refused _ s r

/-! ### The stack (R17) -/

theorem push_of_room {s : State} (a : Addr) (k : State → Result)
    (h : s.stack.length < s.config.stackDepth) :
    push a s k = k (writeStack (s.stack ++ [a]) s) := if_pos h

theorem push_full {s : State} (a : Addr) (k : State → Result)
    (h : s.config.stackDepth ≤ s.stack.length) :
    push a s k = .fault .stackOverflow := if_neg (Nat.not_lt.mpr h)

theorem pop_empty {s : State} (k : Addr → State → Result) (h : s.stack = []) :
    pop s k = .fault .stackUnderflow := by simp [pop, h, raise]

theorem pop_concat {s : State} (k : Addr → State → Result) (l : List Addr) (a : Addr)
    (h : s.stack = l ++ [a]) : pop s k = k a (writeStack l s) := by
  simp [pop, h]

/-- A stack is empty or has a top entry above the older ones. -/
theorem stack_cases (s : State) : s.stack = [] ∨ ∃ l a, s.stack = l ++ [a] := by
  rcases List.eq_nil_or_concat s.stack with h | ⟨l, a, h⟩
  · exact .inl h
  · exact .inr ⟨l, a, by simpa using h⟩

end Sys2Proof.Machine
end

