-- ==== Sys2Proof/Laws/Block.lean ====
section
/-! SUPPORT. What the block transfers move (43_index_memory.md R144 to R146). -/

namespace Sys2Proof.Machine

@[simp] theorem firstRegs_length (s : State) (count : Nat) : (firstRegs s count).length = count := by
  simp [firstRegs]

@[simp] theorem blockBytes_length (s : State) (count : Nat) : (blockBytes s count).length = count := by
  simp [blockBytes]

@[simp] theorem decimalDigits_length (u : Byte) : (decimalDigits u).length = 3 := rfl

theorem firstRegs_get (s : State) {count k : Nat} (h : k < count) :
    (firstRegs s count)[k]'(by simpa using h) = readV s (BitVec.ofNat 4 k) := by
  simp [firstRegs]

theorem blockBytes_get (s : State) {count k : Nat} (h : k < count) :
    (blockBytes s count)[k]'(by simpa using h) = readByte s (s.idx.toNat + k) := by
  simp [blockBytes]

/-- A block moves at most the sixteen registers. -/
theorem blockCount_le (s : State) (x : Reg) : blockCount s x ≤ 16 := by
  have := x.isLt
  unfold blockCount
  split <;> omega

/-- Loading registers changes registers alone. -/
theorem loadRegs_frame (k : Nat) (bytes : List Byte) (s : State) :
    loadRegs k bytes s = { s with v := (loadRegs k bytes s).v } := by
  induction bytes generalizing k s with
  | nil => rfl
  | cons u us ih =>
    rw [loadRegs, ih]
    rfl

@[simp] theorem loadRegs_ram (k : Nat) (bytes : List Byte) (s : State) :
    (loadRegs k bytes s).ram = s.ram := by rw [loadRegs_frame]
@[simp] theorem loadRegs_pc (k : Nat) (bytes : List Byte) (s : State) :
    (loadRegs k bytes s).pc = s.pc := by rw [loadRegs_frame]
@[simp] theorem loadRegs_idx (k : Nat) (bytes : List Byte) (s : State) :
    (loadRegs k bytes s).idx = s.idx := by rw [loadRegs_frame]
@[simp] theorem loadRegs_stack (k : Nat) (bytes : List Byte) (s : State) :
    (loadRegs k bytes s).stack = s.stack := by rw [loadRegs_frame]
@[simp] theorem loadRegs_dt (k : Nat) (bytes : List Byte) (s : State) :
    (loadRegs k bytes s).dt = s.dt := by rw [loadRegs_frame]
@[simp] theorem loadRegs_st (k : Nat) (bytes : List Byte) (s : State) :
    (loadRegs k bytes s).st = s.st := by rw [loadRegs_frame]
@[simp] theorem loadRegs_display (k : Nat) (bytes : List Byte) (s : State) :
    (loadRegs k bytes s).display = s.display := by rw [loadRegs_frame]
@[simp] theorem loadRegs_pressedKey (k : Nat) (bytes : List Byte) (s : State) :
    (loadRegs k bytes s).pressedKey = s.pressedKey := by rw [loadRegs_frame]
@[simp] theorem loadRegs_wait (k : Nat) (bytes : List Byte) (s : State) :
    (loadRegs k bytes s).wait = s.wait := by rw [loadRegs_frame]
@[simp] theorem loadRegs_tickPhase (k : Nat) (bytes : List Byte) (s : State) :
    (loadRegs k bytes s).tickPhase = s.tickPhase := by rw [loadRegs_frame]
@[simp] theorem loadRegs_config (k : Nat) (bytes : List Byte) (s : State) :
    (loadRegs k bytes s).config = s.config := by rw [loadRegs_frame]
@[simp] theorem loadRegs_hostIn (k : Nat) (bytes : List Byte) (s : State) :
    (loadRegs k bytes s).hostIn = s.hostIn := by rw [loadRegs_frame]
@[simp] theorem loadRegs_inputCount (k : Nat) (bytes : List Byte) (s : State) :
    (loadRegs k bytes s).inputCount = s.inputCount := by rw [loadRegs_frame]

/-- Each register after a block load: the byte at its place, else what it held. -/
theorem readV_loadRegs (k : Nat) (bytes : List Byte) (s : State) (r : Reg)
    (h : k + bytes.length ≤ 16) :
    readV (loadRegs k bytes s) r =
      if k ≤ r.toNat ∧ r.toNat < k + bytes.length then bytes.getD (r.toNat - k) 0
      else readV s r := by
  induction bytes generalizing k s with
  | nil =>
    rw [if_neg (by simp only [List.length_nil]; omega)]
    rfl
  | cons u us ih =>
    simp only [List.length_cons] at h ⊢
    rw [loadRegs, ih (k + 1) _ (by omega), readV_writeV]
    have hr : r = BitVec.ofNat 4 k ↔ r.toNat = k := by
      rw [← BitVec.toNat_inj, BitVec.toNat_ofNat, Nat.mod_eq_of_lt (by omega)]
    by_cases h1 : k + 1 ≤ r.toNat ∧ r.toNat < k + 1 + us.length
    · rw [if_pos h1, if_pos (by omega), show r.toNat - k = r.toNat - (k + 1) + 1 by omega]
      simp
    · rw [if_neg h1]
      by_cases h2 : r.toNat = k
      · rw [if_pos (hr.mpr h2), if_pos (by omega), h2]
        simp
      · rw [if_neg (fun h => h2 (hr.mp h)), if_neg (by omega)]

end Sys2Proof.Machine
end

