-- ==== Sys2Proof/Laws/Decode.lean ====
section
/-! SUPPORT. The opcode table nibble by nibble: when a row takes an opcode, and what the operand fields
of an encoded instruction are. -/

namespace Sys2Proof

/-- Nibble `k` of an opcode, counted from the low end. -/
def nib (k : Nat) (w : Opcode) : BitVec 4 := w.extractLsb' (4 * k) 4

/-- Two opcodes with the same nibbles are the same. -/
theorem opcode_ext {w w' : Opcode} (h0 : nib 0 w = nib 0 w') (h1 : nib 1 w = nib 1 w')
    (h2 : nib 2 w = nib 2 w') (h3 : nib 3 w = nib 3 w') : w = w' := by
  have bit : ∀ k j, j < 4 → nib k w = nib k w' → w.getLsbD (4 * k + j) = w'.getLsbD (4 * k + j) := by
    intro k j hj h
    simpa [nib, hj] using congrArg (fun v : BitVec 4 => v.getLsbD j) h
  apply BitVec.eq_of_getLsbD_eq
  intro i hi
  rcases Nat.lt_or_ge i 8 with h8 | h8
  · rcases Nat.lt_or_ge i 4 with h4 | h4
    · simpa [show 4 * 0 + i = i by omega] using bit 0 i h4 h0
    · simpa [show 4 * 1 + (i - 4) = i by omega] using bit 1 (i - 4) (by omega) h1
  · rcases Nat.lt_or_ge i 12 with h12 | h12
    · simpa [show 4 * 2 + (i - 8) = i by omega] using bit 2 (i - 8) (by omega) h2
    · simpa [show 4 * 3 + (i - 12) = i by omega] using bit 3 (i - 12) (by omega) h3

theorem nib_and (k : Nat) (w m : Opcode) : nib k (w &&& m) = nib k w &&& nib k m := by
  simp [nib, BitVec.extractLsb'_and]

/-- A row takes an opcode if each nibble, masked, is that of the pattern (R63). -/
theorem rowMatches_iff (w p m : Opcode) (f : Opcode → Instr) :
    rowMatches w ⟨p, m, f⟩ = true ↔
      nib 3 w &&& nib 3 m = nib 3 p ∧ nib 2 w &&& nib 2 m = nib 2 p ∧
        nib 1 w &&& nib 1 m = nib 1 p ∧ nib 0 w &&& nib 0 m = nib 0 p := by
  simp only [rowMatches, beq_iff_eq, ← nib_and]
  exact ⟨fun h => by simp [h], fun ⟨h3, h2, h1, h0⟩ => opcode_ext h0 h1 h2 h3⟩

/-! ### The bits of each format (R61) -/

theorem getLsbD_formNnn (t : BitVec 4) (a : Addr) (j : Nat) :
    (formNnn t a).getLsbD j = if j < 12 then a.getLsbD j else t.getLsbD (j - 12) :=
  BitVec.getLsbD_append

theorem getLsbD_formXkk (t : BitVec 4) (x : Reg) (k : Byte) (j : Nat) :
    (formXkk t x k).getLsbD j =
      if j < 8 then k.getLsbD j else if j < 12 then x.getLsbD (j - 8) else t.getLsbD (j - 12) := by
  refine BitVec.getLsbD_append.trans ?_
  rw [BitVec.getLsbD_append]
  grind

theorem getLsbD_formXyn (t : BitVec 4) (x y : Reg) (n : Nibble) (j : Nat) :
    (formXyn t x y n).getLsbD j =
      if j < 4 then n.getLsbD j else if j < 8 then y.getLsbD (j - 4) else
        if j < 12 then x.getLsbD (j - 8) else t.getLsbD (j - 12) := by
  refine BitVec.getLsbD_append.trans ?_
  rw [BitVec.getLsbD_append, BitVec.getLsbD_append]
  grind

theorem formXy_eq (t : BitVec 4) (x y : Reg) (low : BitVec 4) : formXy t x y low = formXyn t x y low := rfl

theorem formX_eq (t : BitVec 4) (x : Reg) (low : BitVec 8) : formX t x low = formXkk t x low := rfl

/-! ### The nibbles and fields of each format (R61, R62) -/

@[simp] theorem nib3_formNnn (t : BitVec 4) (a : Addr) : nib 3 (formNnn t a) = t := by
  apply BitVec.eq_of_getLsbD_eq; intro i hi; simp [nib, getLsbD_formNnn, hi]

@[simp] theorem fieldNnn_formNnn (t : BitVec 4) (a : Addr) : fieldNnn (formNnn t a) = a := by
  apply BitVec.eq_of_getLsbD_eq; intro i hi; simp [fieldNnn, getLsbD_formNnn, hi]

@[simp] theorem nib3_formXkk (t : BitVec 4) (x : Reg) (k : Byte) : nib 3 (formXkk t x k) = t := by
  apply BitVec.eq_of_getLsbD_eq; intro i hi; simp [nib, getLsbD_formXkk, hi]; grind

@[simp] theorem nib1_formXkk (t : BitVec 4) (x : Reg) (k : Byte) :
    nib 1 (formXkk t x k) = k.extractLsb' 4 4 := by
  apply BitVec.eq_of_getLsbD_eq; intro i hi; simp [nib, getLsbD_formXkk, hi]; grind

@[simp] theorem nib0_formXkk (t : BitVec 4) (x : Reg) (k : Byte) :
    nib 0 (formXkk t x k) = k.extractLsb' 0 4 := by
  apply BitVec.eq_of_getLsbD_eq; intro i hi; simp [nib, getLsbD_formXkk, hi]; grind

@[simp] theorem fieldX_formXkk (t : BitVec 4) (x : Reg) (k : Byte) : fieldX (formXkk t x k) = x := by
  apply BitVec.eq_of_getLsbD_eq; intro i hi; simp [fieldX, getLsbD_formXkk, hi]; grind

@[simp] theorem fieldKk_formXkk (t : BitVec 4) (x : Reg) (k : Byte) : fieldKk (formXkk t x k) = k := by
  apply BitVec.eq_of_getLsbD_eq; intro i hi; simp [fieldKk, getLsbD_formXkk, hi]

@[simp] theorem nib3_formXyn (t : BitVec 4) (x y : Reg) (n : Nibble) : nib 3 (formXyn t x y n) = t := by
  apply BitVec.eq_of_getLsbD_eq; intro i hi; simp [nib, getLsbD_formXyn, hi]; grind

@[simp] theorem nib0_formXyn (t : BitVec 4) (x y : Reg) (n : Nibble) : nib 0 (formXyn t x y n) = n := by
  apply BitVec.eq_of_getLsbD_eq; intro i hi; simp [nib, getLsbD_formXyn, hi]

@[simp] theorem fieldX_formXyn (t : BitVec 4) (x y : Reg) (n : Nibble) :
    fieldX (formXyn t x y n) = x := by
  apply BitVec.eq_of_getLsbD_eq; intro i hi; simp [fieldX, getLsbD_formXyn, hi]; grind

@[simp] theorem fieldY_formXyn (t : BitVec 4) (x y : Reg) (n : Nibble) :
    fieldY (formXyn t x y n) = y := by
  apply BitVec.eq_of_getLsbD_eq; intro i hi; simp [fieldY, getLsbD_formXyn, hi]; grind

@[simp] theorem fieldN_formXyn (t : BitVec 4) (x y : Reg) (n : Nibble) :
    fieldN (formXyn t x y n) = n := by
  apply BitVec.eq_of_getLsbD_eq; intro i hi; simp [fieldN, getLsbD_formXyn, hi]

/-! ### An opcode from its nibbles and fields -/

theorem formNnn_of_fields {w : Opcode} {t : BitVec 4} (ht : nib 3 w = t) : formNnn t (fieldNnn w) = w := by
  apply opcode_ext
  · apply BitVec.eq_of_getLsbD_eq; intro i hi; simp [nib, getLsbD_formNnn, fieldNnn, hi]; grind
  · apply BitVec.eq_of_getLsbD_eq; intro i hi; simp [nib, getLsbD_formNnn, fieldNnn, hi]; grind
  · apply BitVec.eq_of_getLsbD_eq; intro i hi; simp [nib, getLsbD_formNnn, fieldNnn, hi]; grind
  · rw [nib3_formNnn, ht]

theorem formXkk_of_fields {w : Opcode} {t : BitVec 4} {k : Byte} (ht : nib 3 w = t)
    (hk : fieldKk w = k) : formXkk t (fieldX w) k = w := by
  subst hk
  apply opcode_ext
  · rw [nib0_formXkk]; apply BitVec.eq_of_getLsbD_eq; intro i hi; simp [nib, fieldKk, hi]
  · rw [nib1_formXkk]; apply BitVec.eq_of_getLsbD_eq; intro i hi; simp [nib, fieldKk, hi]
  · apply BitVec.eq_of_getLsbD_eq; intro i hi; simp [nib, getLsbD_formXkk, fieldX, hi]; grind
  · rw [nib3_formXkk, ht]

theorem formXyn_of_fields {w : Opcode} {t n : BitVec 4} (ht : nib 3 w = t) (hn : nib 0 w = n) :
    formXyn t (fieldX w) (fieldY w) n = w := by
  subst hn
  apply opcode_ext
  · rw [nib0_formXyn]
  · apply BitVec.eq_of_getLsbD_eq; intro i hi; simp [nib, getLsbD_formXyn, fieldY, hi]; grind
  · apply BitVec.eq_of_getLsbD_eq; intro i hi; simp [nib, getLsbD_formXyn, fieldX, hi]; grind
  · rw [nib3_formXyn, ht]

/-- The low byte of an opcode from its two low nibbles. -/
theorem fieldKk_of_nibs {w : Opcode} {k : Byte} (h1 : nib 1 w = k.extractLsb' 4 4)
    (h0 : nib 0 w = k.extractLsb' 0 4) : fieldKk w = k := by
  apply BitVec.eq_of_getLsbD_eq
  intro i hi
  have e1 : (nib 1 w).getLsbD (i - 4) = (k.extractLsb' 4 4).getLsbD (i - 4) := by rw [h1]
  have e0 : (nib 0 w).getLsbD i = (k.extractLsb' 0 4).getLsbD i := by rw [h0]
  simp [nib, fieldKk, hi] at *
  rcases Nat.lt_or_ge i 4 with h | h
  · grind
  · have : 4 + (i - 4) = i := by omega
    grind

/-- The nibble a full mask leaves. -/
theorem and_full (n : BitVec 4) : n &&& 15#4 = n := BitVec.and_allOnes

/-! ### First match (R63) -/

/-- Two rows that take one opcode agree on the bits both fix. -/
theorem pattern_agree {w : Opcode} {r q : Row} (hr : rowMatches w r = true)
    (hq : rowMatches w q = true) : r.pattern &&& q.mask = q.pattern &&& r.mask := by
  simp only [rowMatches, beq_iff_eq] at hr hq
  rw [← hr, ← hq, BitVec.and_assoc, BitVec.and_assoc, BitVec.and_comm r.mask]

/-- What decodes: a row that takes the opcode while no earlier row does. -/
theorem decode_ok_iff (w : Opcode) (i : Instr) :
    decode w = .ok i ↔ ∃ (j : Nat) (r : Row), opcodeTable[j]? = some r ∧ rowMatches w r = true ∧
      r.make w = i ∧ ∀ k q, k < j → opcodeTable[k]? = some q → rowMatches w q = false := by
  unfold decode
  constructor
  · intro h
    cases hf : opcodeTable.find? (rowMatches w) with
    | none => simp [hf] at h
    | some r =>
      simp only [hf, Except.ok.injEq] at h
      rw [List.find?_eq_some_iff_getElem] at hf
      obtain ⟨hm, j, hj, he, hall⟩ := hf
      refine ⟨j, r, List.getElem?_eq_some_iff.mpr ⟨hj, he⟩, hm, h, fun k q hk hq => ?_⟩
      obtain ⟨hk', rfl⟩ := List.getElem?_eq_some_iff.mp hq
      simpa using hall k hk
  · rintro ⟨j, r, hr, hm, rfl, hall⟩
    obtain ⟨hj, he⟩ := List.getElem?_eq_some_iff.mp hr
    have hf : opcodeTable.find? (rowMatches w) = some r := by
      rw [List.find?_eq_some_iff_getElem]
      refine ⟨hm, j, hj, he, fun k hk => ?_⟩
      simp [hall k _ hk (List.getElem?_eq_getElem (by omega))]
    rw [hf]

/-- What does not decode: an opcode that no row takes. -/
theorem decode_error_iff (w : Opcode) :
    decode w = .error .unknownOpcode ↔ ∀ r ∈ opcodeTable, rowMatches w r = false := by
  unfold decode
  cases h : opcodeTable.find? (rowMatches w) with
  | some r =>
    simp only [reduceCtorEq, false_iff, not_forall]
    exact ⟨r, List.mem_of_find?_eq_some h, by simpa using List.find?_some h⟩
  | none => simpa using h

/-- The decoder of one whole opcode never runs out of bytes. -/
theorem decode_not_truncated (w : Opcode) : decode w ≠ .error .truncated := by
  unfold decode
  split <;> simp

end Sys2Proof
end

