-- ==== Sys2Proof/Laws/Display.lean ====
section
/-! SUPPORT. What the blit does to each pixel and when it reports a collision. -/

namespace Sys2Proof.Machine

theorem pixel_setPixel (d : Display) (r r' : Fin 32) (c c' : Fin 64) (b : Bool) :
    (d.setPixel r c b).pixel r' c' = if r = r' ∧ c = c' then b else d.pixel r' c' := by
  by_cases hr : r.val = r'.val
  · have hr' : r = r' := Fin.ext hr
    subst hr'
    by_cases hc : c.val = c'.val
    · have hc' : c = c' := Fin.ext hc
      subst hc'
      simp [Display.setPixel, Display.pixel]
    · have hc' : ¬c = c' := fun h => hc (congrArg Fin.val h)
      simp [Display.setPixel, Display.pixel, hc, hc']
  · have hr' : ¬r = r' := fun h => hr (congrArg Fin.val h)
    simp [Display.setPixel, Display.pixel, hr, hr']

/-- Two displays with the same pixels are the same. -/
theorem display_ext {d e : Display} (h : ∀ r c, Display.pixel d r c = Display.pixel e r c) : d = e := by
  apply Vector.ext
  intro r hr
  apply Vector.ext
  intro c hc
  exact h ⟨r, hr⟩ ⟨c, hc⟩

@[simp] theorem pixel_dark (r : Fin 32) (c : Fin 64) : Display.pixel darkDisplay r c = false := by
  simp [Display.pixel, darkDisplay]

theorem pixel_blitPixel (bit : Bool) (r r' : Fin 32) (c c' : Fin 64) (p : Canvas) :
    (blitPixel bit r c p).1.pixel r' c' =
      (p.1.pixel r' c' ^^ (bit && decide (r = r') && decide (c = c'))) := by
  unfold blitPixel
  cases bit
  · simp
  · simp only [if_true, pixel_setPixel, Bool.true_and]
    by_cases hr : r = r' <;> by_cases hc : c = c' <;> simp [hr, hc]

/-! ### Where the sprite's pixels fall -/

/-- Which sprite row falls on display row `r` when the first falls on row `cy mod 32` (R152): the
distance from `cy` down to `r`, mod 32. -/
def spriteRow (cy : Nat) (r : Fin 32) : Nat := (r.val + (32 - cy % 32)) % 32

/-- Which sprite column falls on display column `c` when the leftmost falls on column `cx mod 64`
(R152): the distance from `cx` right to `c`, mod 64. -/
def spriteCol (cx : Nat) (c : Fin 64) : Nat := (c.val + (64 - cx % 64)) % 64

/-- The sprite has a 1 bit on pixel `(r, c)`: the pixel lies in the sprite's rows and eight columns, and
the bit there is 1, bit 7 leftmost (R152). -/
def spriteLights (sprite : List Byte) (cy cx : Nat) (r : Fin 32) (c : Fin 64) : Bool :=
  decide (spriteRow cy r < sprite.length) && decide (spriteCol cx c < 8) &&
    (sprite.getD (spriteRow cy r) 0).getLsbD (7 - spriteCol cx c)

theorem spriteRow_lt (cy : Nat) (r : Fin 32) : spriteRow cy r < 32 := Nat.mod_lt _ (by decide)

theorem spriteCol_lt (cx : Nat) (c : Fin 64) : spriteCol cx c < 64 := Nat.mod_lt _ (by decide)

theorem row_eq_iff (cy k : Nat) (hk : k < 32) (r : Fin 32) :
    rowOf (cy + k) = r ↔ spriteRow cy r = k := by
  have := r.isLt
  simp only [Fin.ext_iff, rowOf, spriteRow]
  omega

theorem col_eq_iff (cx k : Nat) (hk : k < 64) (c : Fin 64) :
    colOf (cx + k) = c ↔ spriteCol cx c = k := by
  have := c.isLt
  simp only [Fin.ext_iff, colOf, spriteCol]
  omega

/-! ### One row -/

/-- The first `m` pixels of a sprite row. -/
def blitCols (m : Nat) (bits : Byte) (cy cx : Nat) (p : Canvas) : Canvas :=
  (List.range m).foldl
    (fun q col => blitPixel (bits.getLsbD (7 - col)) (rowOf cy) (colOf (cx + col)) q) p

theorem blitCols_succ (m : Nat) (bits : Byte) (cy cx : Nat) (p : Canvas) :
    blitCols (m + 1) bits cy cx p =
      blitPixel (bits.getLsbD (7 - m)) (rowOf cy) (colOf (cx + m))
        (blitCols m bits cy cx p) := by
  simp [blitCols, List.range_succ]

theorem pixel_blitCols (m : Nat) (hm : m ≤ 64) (bits : Byte) (cy cx : Nat) (p : Canvas)
    (r : Fin 32) (c : Fin 64) :
    (blitCols m bits cy cx p).1.pixel r c =
      (p.1.pixel r c ^^ (decide (rowOf cy = r) && decide (spriteCol cx c < m) &&
        bits.getLsbD (7 - spriteCol cx c))) := by
  induction m with
  | zero => simp [blitCols]
  | succ m ih =>
    rw [blitCols_succ, pixel_blitPixel, ih (by omega)]
    simp only [col_eq_iff cx m (by omega) c]
    by_cases h : spriteCol cx c = m
    · simp [h, Bool.and_comm]
    · have h2 : (spriteCol cx c < m + 1) ↔ spriteCol cx c < m := by omega
      simp [h, h2]

theorem collision_blitCols (m : Nat) (hm : m ≤ 64) (bits : Byte) (cy cx : Nat) (p : Canvas) :
    (blitCols m bits cy cx p).2 = true ↔
      p.2 = true ∨ ∃ c : Fin 64, spriteCol cx c < m ∧ bits.getLsbD (7 - spriteCol cx c) = true ∧
        p.1.pixel (rowOf cy) c = true := by
  induction m with
  | zero => simp [blitCols]
  | succ m ih =>
    have hcol := (col_eq_iff cx m (by omega) (colOf (cx + m))).mp rfl
    have hpix : (blitCols m bits cy cx p).1.pixel (rowOf cy) (colOf (cx + m)) =
        p.1.pixel (rowOf cy) (colOf (cx + m)) := by
      rw [pixel_blitCols m (by omega)]
      simp [hcol]
    have hstep : (blitCols (m + 1) bits cy cx p).2 = true ↔
        (blitCols m bits cy cx p).2 = true ∨ (bits.getLsbD (7 - m) = true ∧
          p.1.pixel (rowOf cy) (colOf (cx + m)) = true) := by
      rw [blitCols_succ, ← hpix]
      unfold blitPixel
      cases bits.getLsbD (7 - m) <;> simp
    rw [hstep, ih (by omega)]
    constructor
    · rintro ((h | ⟨c, h1, h2⟩) | ⟨h1, h2⟩)
      · exact .inl h
      · exact .inr ⟨c, by omega, h2⟩
      · exact .inr ⟨_, by omega, by rw [hcol]; exact h1, h2⟩
    · rintro (h | ⟨c, h1, h2, h3⟩)
      · exact .inl (.inl h)
      · rcases Nat.lt_or_ge (spriteCol cx c) m with h4 | h4
        · exact .inl (.inr ⟨c, h4, h2, h3⟩)
        · have h5 : spriteCol cx c = m := by omega
          have h6 := (col_eq_iff cx m (by omega) c).mpr h5
          rw [h5] at h2
          rw [← h6] at h3
          exact .inr ⟨h2, h3⟩

/-- A sprite row inverts the pixels under its 1 bits and no other. -/
theorem pixel_blitRow (bits : Byte) (cy cx : Nat) (p : Canvas) (r : Fin 32) (c : Fin 64) :
    (blitRow bits cy cx p).1.pixel r c =
      (p.1.pixel r c ^^ (decide (rowOf cy = r) && decide (spriteCol cx c < 8) &&
        bits.getLsbD (7 - spriteCol cx c))) := pixel_blitCols 8 (by decide) bits cy cx p r c

/-! ### The sprite -/

theorem spriteLights_cons (bits : Byte) (rest : List Byte) (cy cx : Nat) (r : Fin 32) (c : Fin 64)
    (h : rest.length < 32) :
    spriteLights (bits :: rest) cy cx r c =
      ((decide (rowOf cy = r) && decide (spriteCol cx c < 8) &&
        bits.getLsbD (7 - spriteCol cx c)) ^^ spriteLights rest (cy + 1) cx r c) := by
  have h0 := row_eq_iff cy 0 (by decide) r
  rw [Nat.add_zero] at h0
  unfold spriteLights
  by_cases hr : spriteRow cy r = 0
  · have h31 : spriteRow (cy + 1) r = 31 := by
      have := r.isLt
      unfold spriteRow at hr ⊢
      omega
    have h2 : ¬ 31 < rest.length := by omega
    simp [h0, hr, h31, h2]
  · have h1 : spriteRow cy r = spriteRow (cy + 1) r + 1 := by
      have := r.isLt
      unfold spriteRow at hr ⊢
      omega
    rw [h1]
    simp [h0, h1]

/-- The blit inverts exactly the pixels under the sprite's 1 bits (R152). -/
theorem pixel_blitRows (sprite : List Byte) (hn : sprite.length ≤ 32) (cy cx : Nat) (p : Canvas)
    (r : Fin 32) (c : Fin 64) :
    (blitRows sprite cy cx p).1.pixel r c =
      (p.1.pixel r c ^^ spriteLights sprite cy cx r c) := by
  induction sprite generalizing cy p with
  | nil => simp [blitRows, spriteLights]
  | cons bits rest ih =>
    simp only [List.length_cons] at hn
    rw [blitRows, ih (by omega), pixel_blitRow, spriteLights_cons bits rest cy cx r c (by omega),
      Bool.xor_assoc]

/-- The blit reports a collision exactly if a pixel under a 1 bit of the sprite was lit (R152). -/
theorem collision_blitRows (sprite : List Byte) (hn : sprite.length ≤ 32) (cy cx : Nat) (p : Canvas) :
    (blitRows sprite cy cx p).2 = true ↔
      p.2 = true ∨ ∃ r c, spriteLights sprite cy cx r c = true ∧ p.1.pixel r c = true := by
  induction sprite generalizing cy p with
  | nil => simp [blitRows, spriteLights]
  | cons bits rest ih =>
    simp only [List.length_cons] at hn
    have hrow := collision_blitCols 8 (by decide) bits cy cx p
    rw [blitRows, ih (by omega)]
    simp only [pixel_blitRow, spriteLights_cons bits rest cy cx _ _ (show rest.length < 32 by omega)]
    have hoff : ∀ c, spriteLights rest (cy + 1) cx (rowOf cy) c = false := by
      intro c
      have h0 := (row_eq_iff cy 0 (by decide) (rowOf cy)).mp rfl
      have h31 : spriteRow (cy + 1) (rowOf cy) = 31 := by
        have := (rowOf cy).isLt
        unfold spriteRow at h0 ⊢
        omega
      have h2 : ¬ 31 < rest.length := by omega
      simp [spriteLights, h31, h2]
    have hne : ∀ r c, spriteLights rest (cy + 1) cx r c = true → rowOf cy ≠ r := by
      rintro r c h rfl
      rw [hoff c] at h
      exact Bool.false_ne_true h
    constructor
    · rintro (h | ⟨r, c, h1, h2⟩)
      · rcases hrow.mp h with h | ⟨c, h1, h2, h3⟩
        · exact .inl h
        · exact .inr ⟨rowOf cy, c, by simp [h1, h2, hoff], h3⟩
      · have hr := hne r c h1
        simp only [hr, decide_false, Bool.false_and, Bool.xor_false] at h2
        exact .inr ⟨r, c, by simp [hr, h1], h2⟩
    · rintro (h | ⟨r, c, h1, h2⟩)
      · exact .inl (hrow.mpr (.inl h))
      · by_cases hr : rowOf cy = r
        · subst hr
          rw [hoff c, Bool.xor_false] at h1
          simp only [decide_true, Bool.true_and, Bool.and_eq_true, decide_eq_true_eq] at h1
          exact .inl (hrow.mpr (.inr ⟨c, h1.1, h1.2, h2⟩))
        · simp only [hr, decide_false, Bool.false_and, Bool.false_xor] at h1
          exact .inr ⟨r, c, h1, by simp [hr, h2]⟩

/-- A pixel lies under a 1 bit of the sprite exactly if the loops of R152 reach it with that bit. -/
theorem spriteLights_iff (sprite : List Byte) (hn : sprite.length ≤ 32) (cy cx : Nat) (r : Fin 32)
    (c : Fin 64) :
    spriteLights sprite cy cx r c = true ↔
      ∃ row col, row < sprite.length ∧ col < 8 ∧ (sprite.getD row 0).getLsbD (7 - col) = true ∧
        r.val = (cy + row) % 32 ∧ c.val = (cx + col) % 64 := by
  simp only [spriteLights, Bool.and_eq_true, decide_eq_true_eq]
  constructor
  · rintro ⟨⟨h1, h2⟩, h3⟩
    refine ⟨spriteRow cy r, spriteCol cx c, h1, h2, h3, ?_, ?_⟩
    · exact congrArg Fin.val ((row_eq_iff cy _ (spriteRow_lt cy r) r).mpr rfl).symm
    · exact congrArg Fin.val ((col_eq_iff cx _ (spriteCol_lt cx c) c).mpr rfl).symm
  · rintro ⟨row, col, h1, h2, h3, hr, hc⟩
    have hr' := (row_eq_iff cy row (by omega) r).mp (Fin.ext hr.symm)
    have hc' := (col_eq_iff cx col (by omega) c).mp (Fin.ext hc.symm)
    rw [hr', hc']
    exact ⟨⟨h1, h2⟩, h3⟩

theorem spriteBytes_length (s : State) (base n : Nat) : (spriteBytes s base n).length = n := by
  simp [spriteBytes]

end Sys2Proof.Machine
end

