-- ==== Sys2Proof/Laws/Effects.lean ====
section
/-! SUPPORT. How the shared operations give the shapes of Sys2Proof/Safety.lean: an instruction whose `exec`
is one of them has the shape. -/

namespace Sys2Proof.Machine

/-- A checked target is stored unchanged. -/
theorem toNat_target {n : Nat} (h : n < 4096) : (BitVec.ofNat 12 n).toNat = n := by
  rw [BitVec.toNat_ofNat]
  exact Nat.mod_eq_of_lt h

theorem goesTo_of_jumpTo {i : Instr} {s : State} {n : Nat} (h : exec i s = jumpTo n s) :
    GoesTo i s n :=
  ⟨fun hn => ⟨_, h.trans (jumpTo_of_lt s hn), toNat_target hn, rfl⟩,
    fun hn => h.trans (jumpTo_of_ge s hn)⟩

theorem goesTo_of_skipIf {i : Instr} {s : State} {b : Bool} (h : exec i s = skipIf b s) :
    GoesTo i s (if b = true then s.pc.toNat + 4 else s.pc.toNat + 2) := by
  apply goesTo_of_jumpTo
  rw [h, skipIf_eq]
  cases b <;> rfl

theorem setsRegs_of_advance {i : Instr} {s u : State} {f : Reg → Byte} (h : exec i s = advance u)
    (hu : u = { s with v := u.v }) (hf : ∀ r, readV u r = f r) : SetsRegs i s f := by
  have hp : u.pc = s.pc := by rw [hu]
  constructor
  · intro hn
    refine ⟨_, h.trans (advance_of_lt (by rw [hp]; exact hn)), ?_, hf, ?_⟩
    · rw [hp]
      exact toNat_target hn
    · rw [hu]
      rfl
  · intro hn
    rw [h]
    exact jumpTo_of_ge u (by rw [hp]; exact hn)

theorem becomes_of_advance {i : Instr} {s u : State} (h : exec i s = advance u) (hp : u.pc = s.pc) :
    Becomes i s u := by
  constructor
  · intro hn
    refine ⟨_, h.trans (advance_of_lt (by rw [hp]; exact hn)), ?_, rfl⟩
    rw [hp]
    exact toNat_target hn
  · intro hn
    rw [h]
    exact jumpTo_of_ge u (by rw [hp]; exact hn)

theorem storesAt_of_store {i : Instr} {s : State} {base : Nat} {bytes : List Byte}
    (h : exec i s = if rangeInRam base bytes.length then advance (storeBytes base bytes s)
      else raise .memoryOutOfBounds) : StoresAt i s base bytes := by
  refine ⟨fun hb hn => ?_, fun hb hn => ?_, fun hn => ?_⟩
  · have hr : rangeInRam base bytes.length = true := by
      rw [rangeInRam_iff]
      rcases hb with hb | rfl
      · exact .inr hb
      · exact .inl rfl
    rw [if_pos hr] at h
    exact ⟨_, h.trans (advance_of_lt hn), toNat_target hn,
      fun k hk => read_writeList_inside s.ram base k bytes hk,
      fun a ha => read_writeList_outside s.ram base a bytes ha, rfl⟩
  · rw [if_neg] at h
    · exact h
    · rw [rangeInRam_iff]
      have : bytes.length ≠ 0 := fun hh => hb (List.length_eq_zero_iff.mp hh)
      simp only [Config.ramSize]
      omega
  · rw [h]
    split
    · exact jumpTo_of_ge _ hn
    · rfl

end Sys2Proof.Machine
end

