-- ==== Sys2Proof/Laws/Step.lean ====
section
/-! SUPPORT. What a step can answer, said once (40_step_sequencer.md R81): every statement about a step
goes through these. -/

namespace Sys2Proof.Machine

/-- A completed step is a completed turn, committed. -/
theorem step_next {s t : State} : step s = .next t ↔ ∃ u, turn s = .next u ∧ t = commit u := by
  unfold step runStep
  cases turn s <;> simp [eq_comm]

/-- A step faults exactly as its turn does. -/
theorem step_fault {s : State} {f : Fault} : step s = .fault f ↔ turn s = .fault f := by
  unfold step runStep
  cases turn s <;> simp

theorem step_refused {s : State} {r : Refusal} : step s = .refused r ↔ turn s = .refused r := by
  unfold step runStep
  cases turn s <;> simp

theorem turn_waiting {s : State} {x : Reg} (h : s.wait = .waitingForKey x) : turn s = waitTurn x s := by
  simp [turn, h]

theorem turn_running {s : State} (h : s.wait = .running) : turn s = fetch s (runOpcode s) := by
  simp [turn, h]

/-- The opcode a running machine fetches: the byte at `pc` is the high one (R42). -/
theorem fetch_of_lt {s : State} (k : Opcode → Result) (h : s.pc.toNat + 1 < 4096) :
    fetch s k = k (joinBytes (s.ram.read s.pc.toNat) (s.ram.read (s.pc.toNat + 1))) := if_pos h

theorem fetch_at_end {s : State} (k : Opcode → Result) (h : 4096 ≤ s.pc.toNat + 1) :
    fetch s k = .fault .memoryOutOfBounds := if_neg (Nat.not_lt.mpr h)

theorem runOpcode_ok {s : State} {w : Opcode} {i : Instr} (h : decode w = .ok i) :
    runOpcode s w = exec i s := by
  simp [runOpcode, h]

theorem runOpcode_error {s : State} {w : Opcode} {e : Reject} (h : decode w = .error e) :
    runOpcode s w = .fault .unknownOpcode := by
  simp [runOpcode, h, raise]

/-- What a turn of the key wait can answer (R82). -/
theorem waitTurn_cases (x : Reg) (s : State) :
    (keyIn s = none ∧ waitTurn x s = .next s) ∨
      ∃ k, keyIn s = some k ∧
        waitTurn x s = advance (writeWait .running (writeV x (k.setWidth 8) s)) := by
  unfold waitTurn
  cases h : keyIn s with
  | none => exact .inl ⟨rfl, rfl⟩
  | some k => exact .inr ⟨k, rfl, rfl⟩

/-- What a turn can be: a turn of the key wait, a failed fetch, an unknown opcode, or one decoded
instruction executed (R81). -/
theorem turn_cases (s : State) :
    (∃ x, s.wait = .waitingForKey x ∧ turn s = waitTurn x s) ∨
      (s.wait = .running ∧ 4096 ≤ s.pc.toNat + 1 ∧ turn s = .fault .memoryOutOfBounds) ∨
      (s.wait = .running ∧ s.pc.toNat + 1 < 4096 ∧
        ∃ w, w = joinBytes (s.ram.read s.pc.toNat) (s.ram.read (s.pc.toNat + 1)) ∧
          ((∃ e, decode w = .error e ∧ turn s = .fault .unknownOpcode) ∨
            ∃ i, decode w = .ok i ∧ turn s = exec i s)) := by
  cases hw : s.wait with
  | waitingForKey x => exact .inl ⟨x, rfl, turn_waiting hw⟩
  | running =>
    right
    rcases Nat.lt_or_ge (s.pc.toNat + 1) 4096 with h | h
    · refine .inr ⟨rfl, h, _, rfl, ?_⟩
      rw [turn_running hw, fetch_of_lt _ h]
      cases hd : decode (joinBytes (s.ram.read s.pc.toNat) (s.ram.read (s.pc.toNat + 1))) with
      | error e => exact .inl ⟨e, rfl, runOpcode_error hd⟩
      | ok i => exact .inr ⟨i, rfl, runOpcode_ok hd⟩
    · exact .inl ⟨rfl, h, by rw [turn_running hw, fetch_at_end _ h]⟩

end Sys2Proof.Machine
end

