-- ==== Sys2Proof/Laws/Exec.lean ====
section
/-! SUPPORT. What every instruction leaves alone, and on what no instruction depends: the key latch, the
queue of inputs and its counter (10_state.md R20, R22; logs 1 and 2). -/

namespace Sys2Proof.Machine

/-! ### What the sequencer owns -/

/-- No instruction writes `tickPhase`, the key latch, the parameters or the inputs (R26, R85). -/
theorem exec_keeps {i : Instr} {s t : State} (h : exec i s = .next t) :
    t.tickPhase = s.tickPhase ∧ t.pressedKey = s.pressedKey ∧ t.config = s.config ∧
      t.hostIn = s.hostIn ∧ t.inputCount = s.inputCount := by
  have adv : ∀ u : State, advance u = .next t → u.tickPhase = s.tickPhase →
      u.pressedKey = s.pressedKey → u.config = s.config → u.hostIn = s.hostIn →
      u.inputCount = s.inputCount → t.tickPhase = s.tickPhase ∧ t.pressedKey = s.pressedKey ∧
        t.config = s.config ∧ t.hostIn = s.hostIn ∧ t.inputCount = s.inputCount := by
    intro u hu h1 h2 h3 h4 h5
    obtain ⟨_, rfl⟩ := advance_next.mp hu
    exact ⟨h1, h2, h3, h4, h5⟩
  have jmp : ∀ (n : Nat) (u : State), jumpTo n u = .next t → u.tickPhase = s.tickPhase →
      u.pressedKey = s.pressedKey → u.config = s.config → u.hostIn = s.hostIn →
      u.inputCount = s.inputCount → t.tickPhase = s.tickPhase ∧ t.pressedKey = s.pressedKey ∧
        t.config = s.config ∧ t.hostIn = s.hostIn ∧ t.inputCount = s.inputCount := by
    intro n u hu h1 h2 h3 h4 h5
    obtain ⟨_, rfl⟩ := jumpTo_next.mp hu
    exact ⟨h1, h2, h3, h4, h5⟩
  have skp : ∀ b : Bool, skipIf b s = .next t → t.tickPhase = s.tickPhase ∧
      t.pressedKey = s.pressedKey ∧ t.config = s.config ∧ t.hostIn = s.hostIn ∧
      t.inputCount = s.inputCount := by
    intro b hu
    obtain ⟨_, rfl⟩ := skipIf_next.mp hu
    exact ⟨rfl, rfl, rfl, rfl, rfl⟩
  cases i with
  | cls => exact adv _ h rfl rfl rfl rfl rfl
  | ret =>
    rcases stack_cases s with hs | ⟨l, a, hs⟩
    · rw [exec, execRet, pop_empty _ hs] at h
      cases h
    · rw [exec, execRet, pop_concat _ l a hs] at h
      exact jmp _ _ h rfl rfl rfl rfl rfl
  | sys nnn => exact adv _ h rfl rfl rfl rfl rfl
  | jp nnn => exact jmp _ _ h rfl rfl rfl rfl rfl
  | call nnn =>
    rcases Nat.lt_or_ge s.stack.length s.config.stackDepth with hs | hs
    · rw [exec, execCall, push_of_room _ _ hs] at h
      exact jmp _ _ h rfl rfl rfl rfl rfl
    · rw [exec, execCall, push_full _ _ hs] at h
      cases h
  | seLit x kk => exact skp _ h
  | sneLit x kk => exact skp _ h
  | seReg x y => exact skp _ h
  | ldLit x kk => exact adv _ h rfl rfl rfl rfl rfl
  | addLit x kk => exact adv _ h rfl rfl rfl rfl rfl
  | ldReg x y => exact adv _ h rfl rfl rfl rfl rfl
  | orReg x y => exact adv _ h rfl rfl rfl rfl rfl
  | andReg x y => exact adv _ h rfl rfl rfl rfl rfl
  | xorReg x y => exact adv _ h rfl rfl rfl rfl rfl
  | addReg x y => exact adv _ h rfl rfl rfl rfl rfl
  | sub x y => exact adv _ h rfl rfl rfl rfl rfl
  | shr x y => exact adv _ h rfl rfl rfl rfl rfl
  | subn x y => exact adv _ h rfl rfl rfl rfl rfl
  | shl x y => exact adv _ h rfl rfl rfl rfl rfl
  | sneReg x y => exact skp _ h
  | ldI nnn => exact adv _ h rfl rfl rfl rfl rfl
  | jpV0 nnn => exact jmp _ _ h rfl rfl rfl rfl rfl
  | rnd x kk => exact adv _ h rfl rfl rfl rfl rfl
  | drw x y n =>
    simp only [exec, execDrw] at h
    split at h
    · exact adv _ h rfl rfl rfl rfl rfl
    · cases h
  | skp x => exact skp _ h
  | sknp x => exact skp _ h
  | ldFromDt x => exact adv _ h rfl rfl rfl rfl rfl
  | ldKey x =>
    cases h
    exact ⟨rfl, rfl, rfl, rfl, rfl⟩
  | ldDt x => exact adv _ h rfl rfl rfl rfl rfl
  | ldSt x => exact adv _ h rfl rfl rfl rfl rfl
  | addI x => exact adv _ h rfl rfl rfl rfl rfl
  | ldF x =>
    simp only [exec, execLdF] at h
    split at h
    · cases h
    · exact adv _ h rfl rfl rfl rfl rfl
  | ldB x =>
    simp only [exec, execLdB] at h
    split at h
    · exact adv _ h rfl rfl rfl rfl rfl
    · cases h
  | store x =>
    simp only [exec, execStore] at h
    split at h
    · exact adv _ h rfl rfl rfl rfl rfl
    · cases h
  | load x =>
    simp only [exec, execLoad] at h
    split at h
    · exact adv _ h (by simp) (by simp) (by simp) (by simp) (by simp)
    · cases h

/-- Nor does a turn (R82, R85). -/
theorem turn_keeps {s t : State} (h : turn s = .next t) :
    t.tickPhase = s.tickPhase ∧ t.pressedKey = s.pressedKey ∧ t.config = s.config ∧
      t.hostIn = s.hostIn ∧ t.inputCount = s.inputCount := by
  rcases turn_cases s with ⟨x, _, e⟩ | ⟨_, _, e⟩ | ⟨_, _, w, _, ⟨_, _, e⟩ | ⟨i, _, e⟩⟩
  · rw [e] at h
    rcases waitTurn_cases x s with ⟨_, e⟩ | ⟨k, _, e⟩
    · rw [e] at h
      cases h
      exact ⟨rfl, rfl, rfl, rfl, rfl⟩
    · rw [e, advance_next] at h
      obtain ⟨_, rfl⟩ := h
      exact ⟨rfl, rfl, rfl, rfl, rfl⟩
  · rw [e] at h
    cases h
  · rw [e] at h
    cases h
  · rw [e] at h
    exact exec_keeps h

/-! ### What no instruction depends on -/

/-- The state with another key latch and another queue of inputs. -/
def withEnv (k : Option Key) (q : List HostInput) (n : Nat) (s : State) : State :=
  { s with pressedKey := k, hostIn := q, inputCount := n }

/-- A result with its next state changed. -/
def mapNext (f : State → State) : Result → Result
  | .next t => .next (f t)
  | .fault g => .fault g
  | .refused r => .refused r

theorem mapNext_ite (f : State → State) (c : Prop) [Decidable c] (a b : Result) :
    mapNext f (if c then a else b) = if c then mapNext f a else mapNext f b := by
  split <;> rfl

theorem jumpTo_env (k : Option Key) (q : List HostInput) (n : Nat) (target : Nat) (s : State) :
    jumpTo target (withEnv k q n s) = mapNext (withEnv k q n) (jumpTo target s) := by
  unfold jumpTo
  rw [mapNext_ite]
  rfl

theorem advance_env (k : Option Key) (q : List HostInput) (n : Nat) (s : State) :
    advance (withEnv k q n s) = mapNext (withEnv k q n) (advance s) := jumpTo_env k q n _ s

theorem skipIf_env (k : Option Key) (q : List HostInput) (n : Nat) (b : Bool) (s : State) :
    skipIf b (withEnv k q n s) = mapNext (withEnv k q n) (skipIf b s) := by
  rw [skipIf_eq, skipIf_eq]
  split
  · exact jumpTo_env k q n _ s
  · exact advance_env k q n s

theorem loadRegs_env (k : Option Key) (q : List HostInput) (n j : Nat) (l : List Byte) (s : State) :
    loadRegs j l (withEnv k q n s) = withEnv k q n (loadRegs j l s) := by
  induction l generalizing j s with
  | nil => rfl
  | cons u us ih => exact ih (j + 1) (writeV (BitVec.ofNat 4 j) u s)

/-- An instruction does not depend on the latch or on the inputs, but `RND` on the random byte and `SKP`
and `SKNP` on the key (R20, R132, R160, R161). -/
theorem exec_env (i : Instr) (k : Option Key) (q : List HostInput) (n : Nat) (s : State)
    (hr : (∃ x kk, i = .rnd x kk) → rndIn (withEnv k q n s) = rndIn s)
    (hk : (∃ x, i = .skp x ∨ i = .sknp x) → keyIn (withEnv k q n s) = keyIn s) :
    exec i (withEnv k q n s) = mapNext (withEnv k q n) (exec i s) := by
  cases i with
  | cls => exact advance_env k q n (writeDisplay darkDisplay s)
  | ret =>
    rcases stack_cases s with hs | ⟨l, a, hs⟩
    · rw [exec, execRet, exec, execRet, pop_empty _ hs,
        pop_empty (s := withEnv k q n s) _ hs]
      rfl
    · rw [exec, execRet, exec, execRet, pop_concat _ l a hs,
        pop_concat (s := withEnv k q n s) _ l a hs]
      exact jumpTo_env k q n _ (writeStack l s)
  | sys nnn => exact advance_env k q n s
  | jp nnn => exact jumpTo_env k q n _ s
  | call nnn =>
    simp only [exec, execCall, push, mapNext_ite]
    congr 1
    exact jumpTo_env k q n _ (writeStack (s.stack ++ [s.pc]) s)
  | seLit x kk => exact skipIf_env k q n _ s
  | sneLit x kk => exact skipIf_env k q n _ s
  | seReg x y => exact skipIf_env k q n _ s
  | ldLit x kk => exact advance_env k q n (writeV x kk s)
  | addLit x kk => exact advance_env k q n (writeV x (readV s x + kk) s)
  | ldReg x y => exact advance_env k q n (writeV x (readV s y) s)
  | orReg x y => exact advance_env k q n (writeV x (readV s x ||| readV s y) s)
  | andReg x y => exact advance_env k q n (writeV x (readV s x &&& readV s y) s)
  | xorReg x y => exact advance_env k q n (writeV x (readV s x ^^^ readV s y) s)
  | addReg x y => exact advance_env k q n (writeV x _ (writeVF _ s))
  | sub x y => exact advance_env k q n (writeV x _ (writeVF _ s))
  | shr x y => exact advance_env k q n (writeV x _ (writeVF _ s))
  | subn x y => exact advance_env k q n (writeVF _ (writeV x _ s))
  | shl x y => exact advance_env k q n (writeV x _ (writeVF _ s))
  | sneReg x y => exact skipIf_env k q n _ s
  | ldI nnn => exact advance_env k q n (writeI nnn s)
  | jpV0 nnn => exact jumpTo_env k q n _ s
  | rnd x kk =>
    simp only [exec, execRnd, hr ⟨x, kk, rfl⟩]
    exact advance_env k q n (writeV x (rndIn s &&& kk) s)
  | drw x y m =>
    simp only [exec, execDrw, mapNext_ite]
    congr 1
    exact advance_env k q n (writeVF _ (writeDisplay _ s))
  | skp x =>
    simp only [exec, execSkp, hk ⟨x, .inl rfl⟩]
    exact skipIf_env k q n _ s
  | sknp x =>
    simp only [exec, execSknp, hk ⟨x, .inr rfl⟩]
    exact skipIf_env k q n _ s
  | ldFromDt x => exact advance_env k q n (writeV x s.dt s)
  | ldKey x => rfl
  | ldDt x => exact advance_env k q n (writeDt (readV s x) s)
  | ldSt x => exact advance_env k q n (writeSt (readV s x) s)
  | addI x => exact advance_env k q n (writeI _ s)
  | ldF x =>
    simp only [exec, execLdF, mapNext_ite]
    congr 1
    exact advance_env k q n (writeI _ s)
  | ldB x =>
    simp only [exec, execLdB, mapNext_ite]
    congr 1
    exact advance_env k q n (storeBytes s.idx.toNat (decimalDigits (readV s x)) s)
  | store x =>
    simp only [exec, execStore, mapNext_ite]
    congr 1
    exact advance_env k q n (storeBytes s.idx.toNat (firstRegs s (blockCount s x)) s)
  | load x =>
    simp only [exec, execLoad, mapNext_ite]
    congr 1
    rw [loadRegs_env]
    exact advance_env k q n (loadRegs 0 (blockBytes s (blockCount s x)) s)

/-- A turn does not depend on the latch or on the inputs but through the key of a wait turn and the
instruction it executes. -/
theorem turn_env (k : Option Key) (q : List HostInput) (n : Nat) (s : State)
    (hk : ∀ x, s.wait = .waitingForKey x → keyIn (withEnv k q n s) = keyIn s)
    (hx : s.wait = .running → ∀ i,
      decode (joinBytes (s.ram.read s.pc.toNat) (s.ram.read (s.pc.toNat + 1))) = .ok i →
        exec i (withEnv k q n s) = mapNext (withEnv k q n) (exec i s)) :
    turn (withEnv k q n s) = mapNext (withEnv k q n) (turn s) := by
  cases hw : s.wait with
  | waitingForKey x =>
    rw [turn_waiting (s := withEnv k q n s) hw, turn_waiting hw, waitTurn, waitTurn, hk x hw]
    cases keyIn s with
    | none => rfl
    | some c => exact advance_env k q n (writeWait .running (writeV x (c.setWidth 8) s))
  | running =>
    rw [turn_running (s := withEnv k q n s) hw, turn_running hw]
    rcases Nat.lt_or_ge (s.pc.toNat + 1) 4096 with hp | hp
    · rw [fetch_of_lt (s := withEnv k q n s) _ hp, fetch_of_lt _ hp]
      show runOpcode (withEnv k q n s) (joinBytes (s.ram.read s.pc.toNat)
        (s.ram.read (s.pc.toNat + 1))) = _
      cases hd : decode (joinBytes (s.ram.read s.pc.toNat) (s.ram.read (s.pc.toNat + 1))) with
      | error e =>
        rw [runOpcode_error hd, runOpcode_error hd]
        rfl
      | ok i =>
        rw [runOpcode_ok hd, runOpcode_ok hd]
        exact hx hw i hd
    · rw [fetch_at_end (s := withEnv k q n s) _ hp, fetch_at_end _ hp]
      rfl

end Sys2Proof.Machine
end

