-- ==== Sys2Proof/Laws/HostInterface.lean ====
section
/-! SUPPORT. What a load can do (70_reset_and_hazards.md R192, R193): it faults, or it is a store of bytes
into the RAM of a machine that has just been reset. -/

namespace Sys2Proof.Machine

theorem loadImage_of_gt {bytes : List Byte} {base : Nat} (s : State) (h : 4096 < bytes.length + base) :
    loadImage bytes base s = .fault .dataOverflow := if_pos h

theorem loadImage_of_le {bytes : List Byte} {base : Nat} (s : State) (h : bytes.length + base ≤ 4096) :
    loadImage bytes base s = .next (storeBytes base bytes { resetMachine s with ram := s.ram }) :=
  if_neg (Nat.not_lt.mpr h)

/-- Everything a load answers. -/
theorem loadImage_cases (bytes : List Byte) (base : Nat) (s : State) :
    (4096 < bytes.length + base ∧ loadImage bytes base s = .fault .dataOverflow) ∨
    (bytes.length + base ≤ 4096 ∧
      loadImage bytes base s = .next (storeBytes base bytes { resetMachine s with ram := s.ram })) :=
  (Nat.lt_or_ge 4096 (bytes.length + base)).elim (fun h => .inl ⟨h, loadImage_of_gt s h⟩)
    (fun h => .inr ⟨h, loadImage_of_le s h⟩)

/-- A load request is a load at the base it names, or at the default one. -/
theorem serve_load (bytes : List Byte) (base : Option Nat) (s : State) :
    serve (.load bytes base) s = loadImage bytes (base.getD Config.loadBase) s := by
  cases base <;> rfl

end Sys2Proof.Machine
end

