-- ==== Sys2Proof/Laws/PerInstr.lean ====
section
/-! SUPPORT. The family `OwnRow`, one lemma per constructor: the row of 30_encoding.md R64 that stands for
the instruction takes its opcode and gives the instruction back with every operand. -/

namespace Sys2Proof.Laws.OwnRow

/-- The place of the instruction's row in the table, from 0 (R64). -/
def rowNumber : Instr → Nat
  | .cls => 0
  | .ret => 1
  | .sys _ => 2
  | .jp _ => 3
  | .call _ => 4
  | .seLit _ _ => 5
  | .sneLit _ _ => 6
  | .seReg _ _ => 7
  | .ldLit _ _ => 8
  | .addLit _ _ => 9
  | .ldReg _ _ => 10
  | .orReg _ _ => 11
  | .andReg _ _ => 12
  | .xorReg _ _ => 13
  | .addReg _ _ => 14
  | .sub _ _ => 15
  | .shr _ _ => 16
  | .subn _ _ => 17
  | .shl _ _ => 18
  | .sneReg _ _ => 19
  | .ldI _ => 20
  | .jpV0 _ => 21
  | .rnd _ _ => 22
  | .drw _ _ _ => 23
  | .skp _ => 24
  | .sknp _ => 25
  | .ldFromDt _ => 26
  | .ldKey _ => 27
  | .ldDt _ => 28
  | .ldSt _ => 29
  | .addI _ => 30
  | .ldF _ => 31
  | .ldB _ => 32
  | .store _ => 33
  | .load _ => 34

/-- The instruction's own row takes its opcode and makes the instruction of it. -/
def Statement (i : Instr) : Prop :=
  ∃ r, opcodeTable[rowNumber i]? = some r ∧ rowMatches (encode i) r = true ∧ r.make (encode i) = i

/-- The proof of a `Statement` from what the row says about the nibbles it fixes. -/
theorem of_row {i : Instr} (p m : Opcode) (f : Opcode → Instr)
    (hr : opcodeTable[rowNumber i]? = some ⟨p, m, f⟩)
    (h3 : nib 3 (encode i) &&& nib 3 m = nib 3 p) (h2 : nib 2 (encode i) &&& nib 2 m = nib 2 p)
    (h1 : nib 1 (encode i) &&& nib 1 m = nib 1 p) (h0 : nib 0 (encode i) &&& nib 0 m = nib 0 p)
    (hf : f (encode i) = i) : Statement i :=
  ⟨_, hr, (rowMatches_iff _ p m f).mpr ⟨h3, h2, h1, h0⟩, hf⟩

/-- A masked-out nibble of a row is 0 in the pattern. -/
theorem free_nib {w p m : BitVec 4} (hm : m = 0) (hp : p = 0) : w &&& m = p := by simp [hm, hp]

/-- A fixed nibble is that of the pattern. -/
theorem fixed_nib {w p m : BitVec 4} (hm : m = 15) (hp : w = p) : w &&& m = p := by
  rw [hm, hp]
  exact BitVec.and_allOnes

theorem cls : Statement .cls := of_row 0x00E0 0xFFFF _ rfl (by decide) (by decide) (by decide) (by decide) rfl

theorem ret : Statement .ret := of_row 0x00EE 0xFFFF _ rfl (by decide) (by decide) (by decide) (by decide) rfl

theorem sys (nnn : Addr) : Statement (.sys nnn) :=
  of_row 0x0000 0xF000 _ rfl
    (fixed_nib (by decide) (nib3_formNnn _ _))
    (free_nib (by decide) (by decide)) (free_nib (by decide) (by decide)) (free_nib (by decide) (by decide))
    (by simp only [encode, fieldNnn_formNnn])

theorem jp (nnn : Addr) : Statement (.jp nnn) :=
  of_row 0x1000 0xF000 _ rfl
    (fixed_nib (by decide) (nib3_formNnn _ _))
    (free_nib (by decide) (by decide)) (free_nib (by decide) (by decide)) (free_nib (by decide) (by decide))
    (by simp only [encode, fieldNnn_formNnn])

theorem call (nnn : Addr) : Statement (.call nnn) :=
  of_row 0x2000 0xF000 _ rfl
    (fixed_nib (by decide) (nib3_formNnn _ _))
    (free_nib (by decide) (by decide)) (free_nib (by decide) (by decide)) (free_nib (by decide) (by decide))
    (by simp only [encode, fieldNnn_formNnn])

theorem seLit (x : Reg) (kk : Byte) : Statement (.seLit x kk) :=
  of_row 0x3000 0xF000 _ rfl
    (fixed_nib (by decide) (nib3_formXkk _ _ _))
    (free_nib (by decide) (by decide)) (free_nib (by decide) (by decide)) (free_nib (by decide) (by decide))
    (by simp only [encode, fieldX_formXkk, fieldKk_formXkk])

theorem sneLit (x : Reg) (kk : Byte) : Statement (.sneLit x kk) :=
  of_row 0x4000 0xF000 _ rfl
    (fixed_nib (by decide) (nib3_formXkk _ _ _))
    (free_nib (by decide) (by decide)) (free_nib (by decide) (by decide)) (free_nib (by decide) (by decide))
    (by simp only [encode, fieldX_formXkk, fieldKk_formXkk])

theorem seReg (x y : Reg) : Statement (.seReg x y) :=
  of_row 0x5000 0xF00F _ rfl
    (fixed_nib (by decide) (nib3_formXyn _ _ _ _))
    (free_nib (by decide) (by decide)) (free_nib (by decide) (by decide)) (fixed_nib (by decide) (nib0_formXyn _ _ _ _))
    (by simp only [encode, formXy_eq, fieldX_formXyn, fieldY_formXyn])

theorem ldLit (x : Reg) (kk : Byte) : Statement (.ldLit x kk) :=
  of_row 0x6000 0xF000 _ rfl
    (fixed_nib (by decide) (nib3_formXkk _ _ _))
    (free_nib (by decide) (by decide)) (free_nib (by decide) (by decide)) (free_nib (by decide) (by decide))
    (by simp only [encode, fieldX_formXkk, fieldKk_formXkk])

theorem addLit (x : Reg) (kk : Byte) : Statement (.addLit x kk) :=
  of_row 0x7000 0xF000 _ rfl
    (fixed_nib (by decide) (nib3_formXkk _ _ _))
    (free_nib (by decide) (by decide)) (free_nib (by decide) (by decide)) (free_nib (by decide) (by decide))
    (by simp only [encode, fieldX_formXkk, fieldKk_formXkk])

theorem ldReg (x y : Reg) : Statement (.ldReg x y) :=
  of_row 0x8000 0xF00F _ rfl
    (fixed_nib (by decide) (nib3_formXyn _ _ _ _))
    (free_nib (by decide) (by decide)) (free_nib (by decide) (by decide)) (fixed_nib (by decide) (nib0_formXyn _ _ _ _))
    (by simp only [encode, formXy_eq, fieldX_formXyn, fieldY_formXyn])

theorem orReg (x y : Reg) : Statement (.orReg x y) :=
  of_row 0x8001 0xF00F _ rfl
    (fixed_nib (by decide) (nib3_formXyn _ _ _ _))
    (free_nib (by decide) (by decide)) (free_nib (by decide) (by decide)) (fixed_nib (by decide) (nib0_formXyn _ _ _ _))
    (by simp only [encode, formXy_eq, fieldX_formXyn, fieldY_formXyn])

theorem andReg (x y : Reg) : Statement (.andReg x y) :=
  of_row 0x8002 0xF00F _ rfl
    (fixed_nib (by decide) (nib3_formXyn _ _ _ _))
    (free_nib (by decide) (by decide)) (free_nib (by decide) (by decide)) (fixed_nib (by decide) (nib0_formXyn _ _ _ _))
    (by simp only [encode, formXy_eq, fieldX_formXyn, fieldY_formXyn])

theorem xorReg (x y : Reg) : Statement (.xorReg x y) :=
  of_row 0x8003 0xF00F _ rfl
    (fixed_nib (by decide) (nib3_formXyn _ _ _ _))
    (free_nib (by decide) (by decide)) (free_nib (by decide) (by decide)) (fixed_nib (by decide) (nib0_formXyn _ _ _ _))
    (by simp only [encode, formXy_eq, fieldX_formXyn, fieldY_formXyn])

theorem addReg (x y : Reg) : Statement (.addReg x y) :=
  of_row 0x8004 0xF00F _ rfl
    (fixed_nib (by decide) (nib3_formXyn _ _ _ _))
    (free_nib (by decide) (by decide)) (free_nib (by decide) (by decide)) (fixed_nib (by decide) (nib0_formXyn _ _ _ _))
    (by simp only [encode, formXy_eq, fieldX_formXyn, fieldY_formXyn])

theorem sub (x y : Reg) : Statement (.sub x y) :=
  of_row 0x8005 0xF00F _ rfl
    (fixed_nib (by decide) (nib3_formXyn _ _ _ _))
    (free_nib (by decide) (by decide)) (free_nib (by decide) (by decide)) (fixed_nib (by decide) (nib0_formXyn _ _ _ _))
    (by simp only [encode, formXy_eq, fieldX_formXyn, fieldY_formXyn])

theorem shr (x y : Reg) : Statement (.shr x y) :=
  of_row 0x8006 0xF00F _ rfl
    (fixed_nib (by decide) (nib3_formXyn _ _ _ _))
    (free_nib (by decide) (by decide)) (free_nib (by decide) (by decide)) (fixed_nib (by decide) (nib0_formXyn _ _ _ _))
    (by simp only [encode, formXy_eq, fieldX_formXyn, fieldY_formXyn])

theorem subn (x y : Reg) : Statement (.subn x y) :=
  of_row 0x8007 0xF00F _ rfl
    (fixed_nib (by decide) (nib3_formXyn _ _ _ _))
    (free_nib (by decide) (by decide)) (free_nib (by decide) (by decide)) (fixed_nib (by decide) (nib0_formXyn _ _ _ _))
    (by simp only [encode, formXy_eq, fieldX_formXyn, fieldY_formXyn])

theorem shl (x y : Reg) : Statement (.shl x y) :=
  of_row 0x800E 0xF00F _ rfl
    (fixed_nib (by decide) (nib3_formXyn _ _ _ _))
    (free_nib (by decide) (by decide)) (free_nib (by decide) (by decide)) (fixed_nib (by decide) (nib0_formXyn _ _ _ _))
    (by simp only [encode, formXy_eq, fieldX_formXyn, fieldY_formXyn])

theorem sneReg (x y : Reg) : Statement (.sneReg x y) :=
  of_row 0x9000 0xF00F _ rfl
    (fixed_nib (by decide) (nib3_formXyn _ _ _ _))
    (free_nib (by decide) (by decide)) (free_nib (by decide) (by decide)) (fixed_nib (by decide) (nib0_formXyn _ _ _ _))
    (by simp only [encode, formXy_eq, fieldX_formXyn, fieldY_formXyn])

theorem ldI (nnn : Addr) : Statement (.ldI nnn) :=
  of_row 0xA000 0xF000 _ rfl
    (fixed_nib (by decide) (nib3_formNnn _ _))
    (free_nib (by decide) (by decide)) (free_nib (by decide) (by decide)) (free_nib (by decide) (by decide))
    (by simp only [encode, fieldNnn_formNnn])

theorem jpV0 (nnn : Addr) : Statement (.jpV0 nnn) :=
  of_row 0xB000 0xF000 _ rfl
    (fixed_nib (by decide) (nib3_formNnn _ _))
    (free_nib (by decide) (by decide)) (free_nib (by decide) (by decide)) (free_nib (by decide) (by decide))
    (by simp only [encode, fieldNnn_formNnn])

theorem rnd (x : Reg) (kk : Byte) : Statement (.rnd x kk) :=
  of_row 0xC000 0xF000 _ rfl
    (fixed_nib (by decide) (nib3_formXkk _ _ _))
    (free_nib (by decide) (by decide)) (free_nib (by decide) (by decide)) (free_nib (by decide) (by decide))
    (by simp only [encode, fieldX_formXkk, fieldKk_formXkk])

theorem drw (x y : Reg) (n : Nibble) : Statement (.drw x y n) :=
  of_row 0xD000 0xF000 _ rfl
    (fixed_nib (by decide) (nib3_formXyn _ _ _ _))
    (free_nib (by decide) (by decide)) (free_nib (by decide) (by decide)) (free_nib (by decide) (by decide))
    (by simp only [encode, fieldX_formXyn, fieldY_formXyn, fieldN_formXyn])

theorem skp (x : Reg) : Statement (.skp x) :=
  of_row 0xE09E 0xF0FF _ rfl
    (fixed_nib (by decide) (nib3_formXkk _ _ _))
    (free_nib (by decide) (by decide)) (fixed_nib (by decide) (nib1_formXkk _ _ _)) (fixed_nib (by decide) (nib0_formXkk _ _ _))
    (by simp only [encode, formX_eq, fieldX_formXkk])

theorem sknp (x : Reg) : Statement (.sknp x) :=
  of_row 0xE0A1 0xF0FF _ rfl
    (fixed_nib (by decide) (nib3_formXkk _ _ _))
    (free_nib (by decide) (by decide)) (fixed_nib (by decide) (nib1_formXkk _ _ _)) (fixed_nib (by decide) (nib0_formXkk _ _ _))
    (by simp only [encode, formX_eq, fieldX_formXkk])

theorem ldFromDt (x : Reg) : Statement (.ldFromDt x) :=
  of_row 0xF007 0xF0FF _ rfl
    (fixed_nib (by decide) (nib3_formXkk _ _ _))
    (free_nib (by decide) (by decide)) (fixed_nib (by decide) (nib1_formXkk _ _ _)) (fixed_nib (by decide) (nib0_formXkk _ _ _))
    (by simp only [encode, formX_eq, fieldX_formXkk])

theorem ldKey (x : Reg) : Statement (.ldKey x) :=
  of_row 0xF00A 0xF0FF _ rfl
    (fixed_nib (by decide) (nib3_formXkk _ _ _))
    (free_nib (by decide) (by decide)) (fixed_nib (by decide) (nib1_formXkk _ _ _)) (fixed_nib (by decide) (nib0_formXkk _ _ _))
    (by simp only [encode, formX_eq, fieldX_formXkk])

theorem ldDt (x : Reg) : Statement (.ldDt x) :=
  of_row 0xF015 0xF0FF _ rfl
    (fixed_nib (by decide) (nib3_formXkk _ _ _))
    (free_nib (by decide) (by decide)) (fixed_nib (by decide) (nib1_formXkk _ _ _)) (fixed_nib (by decide) (nib0_formXkk _ _ _))
    (by simp only [encode, formX_eq, fieldX_formXkk])

theorem ldSt (x : Reg) : Statement (.ldSt x) :=
  of_row 0xF018 0xF0FF _ rfl
    (fixed_nib (by decide) (nib3_formXkk _ _ _))
    (free_nib (by decide) (by decide)) (fixed_nib (by decide) (nib1_formXkk _ _ _)) (fixed_nib (by decide) (nib0_formXkk _ _ _))
    (by simp only [encode, formX_eq, fieldX_formXkk])

theorem addI (x : Reg) : Statement (.addI x) :=
  of_row 0xF01E 0xF0FF _ rfl
    (fixed_nib (by decide) (nib3_formXkk _ _ _))
    (free_nib (by decide) (by decide)) (fixed_nib (by decide) (nib1_formXkk _ _ _)) (fixed_nib (by decide) (nib0_formXkk _ _ _))
    (by simp only [encode, formX_eq, fieldX_formXkk])

theorem ldF (x : Reg) : Statement (.ldF x) :=
  of_row 0xF029 0xF0FF _ rfl
    (fixed_nib (by decide) (nib3_formXkk _ _ _))
    (free_nib (by decide) (by decide)) (fixed_nib (by decide) (nib1_formXkk _ _ _)) (fixed_nib (by decide) (nib0_formXkk _ _ _))
    (by simp only [encode, formX_eq, fieldX_formXkk])

theorem ldB (x : Reg) : Statement (.ldB x) :=
  of_row 0xF033 0xF0FF _ rfl
    (fixed_nib (by decide) (nib3_formXkk _ _ _))
    (free_nib (by decide) (by decide)) (fixed_nib (by decide) (nib1_formXkk _ _ _)) (fixed_nib (by decide) (nib0_formXkk _ _ _))
    (by simp only [encode, formX_eq, fieldX_formXkk])

theorem store (x : Reg) : Statement (.store x) :=
  of_row 0xF055 0xF0FF _ rfl
    (fixed_nib (by decide) (nib3_formXkk _ _ _))
    (free_nib (by decide) (by decide)) (fixed_nib (by decide) (nib1_formXkk _ _ _)) (fixed_nib (by decide) (nib0_formXkk _ _ _))
    (by simp only [encode, formX_eq, fieldX_formXkk])

theorem load (x : Reg) : Statement (.load x) :=
  of_row 0xF065 0xF0FF _ rfl
    (fixed_nib (by decide) (nib3_formXkk _ _ _))
    (free_nib (by decide) (by decide)) (fixed_nib (by decide) (nib1_formXkk _ _ _)) (fixed_nib (by decide) (nib0_formXkk _ _ _))
    (by simp only [encode, formX_eq, fieldX_formXkk])

end Sys2Proof.Laws.OwnRow
end

