-- ==== Sys2Proof/Tests/Slice0.lean ====
section
/-! SUPPORT. Tests. Expected results come from spec/: the opcodes are written out from the forms of
30_encoding.md R64, the vectors are those of 95_test_vectors.md by their ids. The last part shows, for
every obligation that has hypotheses, a concrete state and operands that meet them. -/

namespace Sys2Proof.Tests

open Sys2Proof.Machine

/-! ### Helpers -/

/-- The start state of the vectors: reset, with this step's key and random byte given. -/
def start (key : Option Key) (rnd : Byte) : State := { State.reset with hostIn := [⟨key, rnd⟩] }

/-- The start state with no key and random byte 0. -/
def idle : State := start none 0

/-- A register file with the listed values, 0 elsewhere. -/
def withRegs (l : List (Reg × Byte)) (s : State) : State := l.foldl (fun t p => writeV p.1 p.2 t) s

/-- The state with an opcode at `pc`. -/
def withOp (w : Opcode) (s : State) : State :=
  storeBytes s.pc.toNat [w.extractLsb' 8 8, w.extractLsb' 0 8] s

/-- The state with one pixel lit. -/
def withPixel (r : Fin 32) (c : Fin 64) (s : State) : State :=
  writeDisplay (s.display.setPixel r c true) s

/-- The operation completes and the state after it passes the check. -/
def after (r : Result) (p : State → Bool) : Bool :=
  match r with
  | .next t => p t
  | .fault _ => false
  | .refused _ => false

/-- The operation faults with this fault. -/
def faults (r : Result) (f : Fault) : Bool :=
  match r with
  | .next _ => false
  | .fault g => g == f
  | .refused _ => false

/-- Whether the listed pixels are lit, each by its row and column. -/
def pixels (s : State) (l : List (Fin 32 × Fin 64)) : List Bool := l.map fun p => s.display.pixel p.1 p.2

theorem exists_of_after {r : Result} {p : State → Bool} (h : after r p = true) :
    ∃ t, r = .next t ∧ p t = true := by
  cases r with
  | next t => exact ⟨t, rfl, h⟩
  | fault f => cases h
  | refused f => cases h

theorem eq_of_faults {r : Result} {f : Fault} (h : faults r f = true) : r = .fault f := by
  cases r with
  | next t => cases h
  | fault g => simpa [faults] using h
  | refused g => cases h

/-! ### Well-formedness: the one check (R67, R102) -/

/-- No opcode is `SYS 0E0`: 0x00E0 is `CLS`. -/
theorem test_sys_0E0_ill_formed : WellFormed (.sys 0x0E0) = false := by decide

/-- No opcode is `SYS 0EE`: 0x00EE is `RET`. -/
theorem test_sys_0EE_ill_formed : WellFormed (.sys 0x0EE) = false := by decide

/-- Its neighbours are well-formed. -/
theorem test_sys_0E1_well_formed : WellFormed (.sys 0x0E1) = true := by decide

/-! ### Decoding: one word per constructor, from the forms of R64 -/

/-- Vector EN1. -/
theorem test_decode_cls : decode 0x00E0 = .ok .cls := by decide

/-- Vector EN2. -/
theorem test_decode_ret : decode 0x00EE = .ok .ret := by decide

/-- Vector EN3. -/
theorem test_decode_sys : decode 0x00E1 = .ok (.sys 0x0E1) := by decide

/-- Form `1nnn`. -/
theorem test_decode_jp : decode 0x1301 = .ok (.jp 0x301) := by decide

/-- Form `2nnn`. -/
theorem test_decode_call : decode 0x2210 = .ok (.call 0x210) := by decide

/-- Form `3xkk`. -/
theorem test_decode_seLit : decode 0x332A = .ok (.seLit 0x3 0x2A) := by decide

/-- Form `4xkk`. -/
theorem test_decode_sneLit : decode 0x432A = .ok (.sneLit 0x3 0x2A) := by decide

/-- Vector EN6. -/
theorem test_decode_seReg : decode 0x5120 = .ok (.seReg 0x1 0x2) := by decide

/-- Vector EN17. -/
theorem test_decode_ldLit : decode 0x6A05 = .ok (.ldLit 0xA 0x05) := by decide

/-- Form `7xkk`. -/
theorem test_decode_addLit : decode 0x7205 = .ok (.addLit 0x2 0x05) := by decide

/-- Form `8xy0`. -/
theorem test_decode_ldReg : decode 0x8AB0 = .ok (.ldReg 0xA 0xB) := by decide

/-- Form `8xy1`. -/
theorem test_decode_orReg : decode 0x8AB1 = .ok (.orReg 0xA 0xB) := by decide

/-- Form `8xy2`. -/
theorem test_decode_andReg : decode 0x8AB2 = .ok (.andReg 0xA 0xB) := by decide

/-- Form `8xy3`. -/
theorem test_decode_xorReg : decode 0x8AB3 = .ok (.xorReg 0xA 0xB) := by decide

/-- Form `8xy4`. -/
theorem test_decode_addReg : decode 0x8AB4 = .ok (.addReg 0xA 0xB) := by decide

/-- Form `8xy5`. -/
theorem test_decode_sub : decode 0x8AB5 = .ok (.sub 0xA 0xB) := by decide

/-- Form `8xy6`. -/
theorem test_decode_shr : decode 0x8AB6 = .ok (.shr 0xA 0xB) := by decide

/-- Form `8xy7`. -/
theorem test_decode_subn : decode 0x8AB7 = .ok (.subn 0xA 0xB) := by decide

/-- Vector EN10. -/
theorem test_decode_shl : decode 0x812E = .ok (.shl 0x1 0x2) := by decide

/-- Form `9xy0`. -/
theorem test_decode_sneReg : decode 0x9120 = .ok (.sneReg 0x1 0x2) := by decide

/-- Form `Annn`. -/
theorem test_decode_ldI : decode 0xA300 = .ok (.ldI 0x300) := by decide

/-- Vector EN19. -/
theorem test_decode_jpV0 : decode 0xBFFF = .ok (.jpV0 0xFFF) := by decide

/-- Vector EN20. -/
theorem test_decode_rnd : decode 0xC3F0 = .ok (.rnd 0x3 0xF0) := by decide

/-- Vector EN18. -/
theorem test_decode_drw : decode 0xDABC = .ok (.drw 0xA 0xB 0xC) := by decide

/-- Form `Ex9E`. -/
theorem test_decode_skp : decode 0xE49E = .ok (.skp 0x4) := by decide

/-- Vector EN12. -/
theorem test_decode_sknp : decode 0xE0A1 = .ok (.sknp 0x0) := by decide

/-- Form `Fx07`. -/
theorem test_decode_ldFromDt : decode 0xF107 = .ok (.ldFromDt 0x1) := by decide

/-- Form `Fx0A`. -/
theorem test_decode_ldKey : decode 0xF30A = .ok (.ldKey 0x3) := by decide

/-- Form `Fx15`. -/
theorem test_decode_ldDt : decode 0xF215 = .ok (.ldDt 0x2) := by decide

/-- Form `Fx18`. -/
theorem test_decode_ldSt : decode 0xF218 = .ok (.ldSt 0x2) := by decide

/-- Form `Fx1E`. -/
theorem test_decode_addI : decode 0xF21E = .ok (.addI 0x2) := by decide

/-- Form `Fx29`. -/
theorem test_decode_ldF : decode 0xF229 = .ok (.ldF 0x2) := by decide

/-- Form `Fx33`. -/
theorem test_decode_ldB : decode 0xF233 = .ok (.ldB 0x2) := by decide

/-- Form `Fx55`. -/
theorem test_decode_store : decode 0xF255 = .ok (.store 0x2) := by decide

/-- Vector EN14. -/
theorem test_decode_load : decode 0xF165 = .ok (.load 0x1) := by decide

/-- Vectors EN7, EN8, EN9, EN11, EN13, EN15, EN16: unknown opcodes, rejected by name. -/
theorem test_decode_unknown :
    decode 0x5121 = .error .unknownOpcode ∧ decode 0x9121 = .error .unknownOpcode ∧
    decode 0x8128 = .error .unknownOpcode ∧ decode 0xE09F = .error .unknownOpcode ∧
    decode 0xF000 = .error .unknownOpcode ∧ decode 0xF166 = .error .unknownOpcode ∧
    decode 0xFFFF = .error .unknownOpcode := by decide

/-- R42: the byte at the lower address is the high byte; the bytes after the opcode are left. -/
theorem test_decode_bytes : decodeBytes [0x6A, 0x05, 0xFF] = .ok (.ldLit 0xA 0x05, [0xFF]) := by decide

/-- One byte is no opcode (R60). -/
theorem test_decode_one_byte : decodeBytes [0x6A] = .error .truncated := by decide

/-- The words of spec/opcode_table.json: one 16-bit word. -/
theorem test_decode_table_word : decodeTableWord 16 0xDABC = some (.drw 0xA 0xB 0xC) := by decide

/-! ### One step of each instruction -/

/-- Vector DS1: `CLS`. -/
theorem test_cls :
    after (step (withOp 0x00E0 (withPixel 3 5 idle)))
      (fun t => pixels t [(3, 5), (0, 0)] == [false, false] && t.pc == 0x202) = true := by decide

/-- Vector CF6: `RET`. -/
theorem test_ret :
    after (step (withOp 0x00EE ({ idle with pc := 0x212, stack := [0x204] })))
      (fun t => t.stack == [] && t.pc == 0x206) = true := by decide

/-- Vector CF7: `RET` with an empty stack. -/
theorem test_ret_underflow :
    faults (step (withOp 0x00EE idle)) .stackUnderflow = true := by decide

/-- Vector CF4: `SYS 123` is a no-op. -/
theorem test_sys :
    after (step (withOp 0x0123 idle))
      (fun t => t.pc == 0x202 && t.v == zeroRegs && t.stack == []) = true := by decide

/-- Vector CF2: `JP 301`, an odd target. -/
theorem test_jp :
    after (step (withOp 0x1301 idle))
      (fun t => t.pc == 0x301) = true := by decide

/-- Vector SQ3: `JP 200` in the last two bytes of RAM. -/
theorem test_jp_from_end :
    after (step (withOp 0x1200 ({ idle with pc := 0xFFE })))
      (fun t => t.pc == 0x200) = true := by decide

/-- Vector CF5: `CALL 210` pushes its own address. -/
theorem test_call :
    after (step (withOp 0x2210 ({ idle with pc := 0x204 })))
      (fun t => t.stack == [0x204] && t.pc == 0x210) = true := by decide

/-- Vector CF9: `CALL` with 16 entries on the stack. -/
theorem test_call_overflow :
    faults (step (withOp 0x2210 ({ idle with stack := List.replicate 16 0x300 }))) .stackOverflow = true := by decide

/-- Vector CF14. -/
theorem test_seLit_skips :
    after (step (withOp 0x332A (withRegs [(0x3, 0x2A)] idle)))
      (fun t => t.pc == 0x204) = true := by decide

/-- Vector SQ4: the skip would leave RAM. -/
theorem test_seLit_at_end :
    faults (step (withOp 0x3000 ({ idle with pc := 0xFFC }))) .memoryOutOfBounds = true := by decide

/-- Vector CF16. -/
theorem test_sneLit_stays :
    after (step (withOp 0x432A (withRegs [(0x3, 0x2A)] idle)))
      (fun t => t.pc == 0x202) = true := by decide

/-- Vector CF17. -/
theorem test_sneLit_skips :
    after (step (withOp 0x432A (withRegs [(0x3, 0x2B)] idle)))
      (fun t => t.pc == 0x204) = true := by decide

/-- Vector CF18. -/
theorem test_seReg_skips :
    after (step (withOp 0x5120 (withRegs [(0x1, 0x07), (0x2, 0x07)] { idle with pc := 0x300 })))
      (fun t => t.pc == 0x304) = true := by decide

/-- Vector CF19. -/
theorem test_seReg_stays :
    after (step (withOp 0x5120 (withRegs [(0x1, 0x07), (0x2, 0x08)] { idle with pc := 0x300 })))
      (fun t => t.pc == 0x302) = true := by decide

/-- Vector CF20. -/
theorem test_sneReg_skips :
    after (step (withOp 0x9120 (withRegs [(0x1, 0x07), (0x2, 0x08)] { idle with pc := 0x300 })))
      (fun t => t.pc == 0x304) = true := by decide

/-- Vector CF21. -/
theorem test_sneReg_stays :
    after (step (withOp 0x9120 (withRegs [(0x1, 0x07), (0x2, 0x07)] { idle with pc := 0x300 })))
      (fun t => t.pc == 0x302) = true := by decide

/-- Vector CF24: the sum may be 0xFFF. -/
theorem test_jpV0 :
    after (step (withOp 0xBFFE (withRegs [(0x0, 0x01)] idle)))
      (fun t => t.pc == 0xFFF) = true := by decide

/-- Vector CF25: a sum of 0x1000 faults. -/
theorem test_jpV0_no_wrap :
    faults (step (withOp 0xBFFF (withRegs [(0x0, 0x01)] idle))) .memoryOutOfBounds = true := by decide

/-- Vector AL32: `VF` is an ordinary destination. -/
theorem test_ldLit :
    after (step (withOp 0x6F2A (withRegs [(0xF, 0x07)] idle)))
      (fun t => readV t 0xF == 0x2A && t.pc == 0x202) = true := by decide

/-- Vector AL22: no flag change. -/
theorem test_addLit :
    after (step (withOp 0x70FF (withRegs [(0xF, 0x01)] idle)))
      (fun t => readV t 0x0 == 0xFF && readV t 0xF == 0x01) = true := by decide

/-- Vector AL23: wraps, no flag. -/
theorem test_addLit_wraps :
    after (step (withOp 0x7205 (withRegs [(0x2, 0xFE)] idle)))
      (fun t => readV t 0x2 == 0x03 && readV t 0xF == 0x00) = true := by decide

/-- Vector AL25. -/
theorem test_ldReg :
    after (step (withOp 0x8010 (withRegs [(0x1, 0x9C)] idle)))
      (fun t => readV t 0x0 == 0x9C) = true := by decide

/-- Vector AL26: flag untouched. -/
theorem test_or :
    after (step (withOp 0x8011 (withRegs [(0x0, 0xF0), (0x1, 0x0F), (0xF, 0x01)] idle)))
      (fun t => readV t 0x0 == 0xFF && readV t 0xF == 0x01) = true := by decide

/-- Vector AL27. -/
theorem test_and :
    after (step (withOp 0x8012 (withRegs [(0x0, 0xF3), (0x1, 0x3F)] idle)))
      (fun t => readV t 0x0 == 0x33) = true := by decide

/-- Vector AL28. -/
theorem test_xor :
    after (step (withOp 0x8003 (withRegs [(0x0, 0xAB)] idle)))
      (fun t => readV t 0x0 == 0x00) = true := by decide

/-- Vector AL5: the operand is `VF` before the operation. -/
theorem test_addReg_reads_VF_before :
    after (step (withOp 0x80F4 (withRegs [(0x0, 0xFF), (0xF, 0x01)] idle)))
      (fun t => readV t 0x0 == 0x00 && readV t 0xF == 0x01) = true := by decide

/-- Vector AL2: a sum of 255 is no carry. -/
theorem test_addReg_no_carry :
    after (step (withOp 0x8014 (withRegs [(0x0, 0x7F), (0x1, 0x80)] idle)))
      (fun t => readV t 0x0 == 0xFF && readV t 0xF == 0x00) = true := by decide

/-- Vector AL6: equal is not greater. -/
theorem test_sub_equal :
    after (step (withOp 0x8015 (withRegs [(0x0, 0x05), (0x1, 0x05), (0xF, 0x01)] idle)))
      (fun t => readV t 0x0 == 0x00 && readV t 0xF == 0x00) = true := by decide

/-- Vector AL9: the result survives in `VF`. -/
theorem test_sub_to_VF :
    after (step (withOp 0x8F15 (withRegs [(0xF, 0x09), (0x1, 0x04)] idle)))
      (fun t => readV t 0xF == 0x05) = true := by decide

/-- Vector AL21: the value is from `V1`, the flag from `V0`. -/
theorem test_shr :
    after (step (withOp 0x8016 (withRegs [(0x0, 0x02), (0x1, 0x81)] idle)))
      (fun t => readV t 0x0 == 0x40 && readV t 0xF == 0x00) = true := by decide

/-- Vector AL15: `SHIFT_USES_VY` false. -/
theorem test_shr_of_Vx :
    after (step (withOp 0x8016 (withRegs [(0x0, 0x01), (0x1, 0x06)]
      { idle with config := { Config.defaults with shiftUsesVy := false } })))
      (fun t => readV t 0x0 == 0x00 && readV t 0xF == 0x01) = true := by decide

/-- Vector AL12. -/
theorem test_subn :
    after (step (withOp 0x8017 (withRegs [(0x0, 0x06), (0x1, 0x05), (0xF, 0x01)] idle)))
      (fun t => readV t 0x0 == 0xFF && readV t 0xF == 0x00) = true := by decide

/-- Vector AL13: the flag survives in `VF`. -/
theorem test_subn_to_VF :
    after (step (withOp 0x8F17 (withRegs [(0xF, 0x04), (0x1, 0x09)] idle)))
      (fun t => readV t 0xF == 0x01) = true := by decide

/-- Vector AL18. -/
theorem test_shl :
    after (step (withOp 0x801E (withRegs [(0x0, 0x80), (0x1, 0x41)] idle)))
      (fun t => readV t 0x0 == 0x82 && readV t 0xF == 0x01) = true := by decide

/-- Vector AL19: `SHIFT_USES_VY` false. -/
theorem test_shl_of_Vx :
    after (step (withOp 0x801E (withRegs [(0x0, 0x80), (0x1, 0x41)]
      { idle with config := { Config.defaults with shiftUsesVy := false } })))
      (fun t => readV t 0x0 == 0x00 && readV t 0xF == 0x01) = true := by decide

/-- Vector IM1. -/
theorem test_ldI :
    after (step (withOp 0xA300 idle))
      (fun t => t.idx == 0x300 && t.pc == 0x202) = true := by decide

/-- Vector AL29. -/
theorem test_rnd :
    after (step (withOp 0xC30F (start none 0xB7)))
      (fun t => readV t 0x3 == 0x07) = true := by decide

/-- Vector AL31: no flag. -/
theorem test_rnd_to_VF :
    after (step (withOp 0xCFFF (start none 0xB7)))
      (fun t => readV t 0xF == 0xB7) = true := by decide

/-- Vector DS4: each pixel wraps by itself. -/
theorem test_drw_wraps :
    after (step (withOp 0xD121 (storeBytes 0x300 [0xFF] (withRegs [(0x1, 0x3C), (0x2, 0x1F)] { idle with idx := 0x300 }))))
      (fun t => pixels t [(31, 59), (31, 60), (31, 63), (31, 0), (31, 3), (31, 4), (0, 0)] ==
        [false, true, true, true, true, false, false] && readV t 0xF == 0x00) = true := by decide

/-- Vector DS3: glyph 5 over a lit pixel. -/
theorem test_drw_collides :
    after (step (withOp 0xD125 (withPixel 0 0 { idle with idx := 0x019 })))
      (fun t => pixels t [(0, 0), (0, 1), (0, 3), (0, 4), (1, 0), (1, 3), (3, 0), (3, 3)] ==
        [false, true, true, false, true, false, false, true] && readV t 0xF == 0x01) = true := by decide

/-- Vector KT4: the whole byte is compared. -/
theorem test_skp_whole_byte :
    after (step (withOp 0xE49E (withRegs [(0x4, 0x17)] { start (some 0x7) 0 with pc := 0x220 })))
      (fun t => t.pc == 0x222) = true := by decide

/-- Vector KT8: this step's key, not the latch. -/
theorem test_skp_not_the_latch :
    after (step (withOp 0xE49E (withRegs [(0x4, 0x07)] { idle with pc := 0x220, pressedKey := some 0x7 })))
      (fun t => t.pc == 0x222) = true := by decide

/-- Vector KT6. -/
theorem test_sknp_no_key :
    after (step (withOp 0xE4A1 (withRegs [(0x4, 0x07)] { idle with pc := 0x220 })))
      (fun t => t.pc == 0x224) = true := by decide

/-- Vector KT5. -/
theorem test_sknp_key :
    after (step (withOp 0xE4A1 (withRegs [(0x4, 0x07)] { start (some 0x7) 0 with pc := 0x220 })))
      (fun t => t.pc == 0x222) = true := by decide

/-- Vector KT10: read before the tick. -/
theorem test_ldFromDt :
    after (step (withOp 0xF107 ({ idle with dt := 0x2C, tickPhase := 7 })))
      (fun t => readV t 0x1 == 0x2C && t.dt == 0x2B && t.tickPhase == 0) = true := by decide

/-- Vector KT15: the key of the issuing step is ignored, but latched. -/
theorem test_ldKey :
    after (step (withOp 0xF30A ({ start (some 0x5) 0 with pc := 0x204 })))
      (fun t => t.wait == .waitingForKey 0x3 && t.pc == 0x204 && readV t 0x3 == 0x00 &&
        t.pressedKey == some 0x5) = true := by decide

/-- Vector KT12: written 5, then the tick of the same step. -/
theorem test_ldDt :
    after (step (withOp 0xF015 (withRegs [(0x0, 0x05)] { idle with tickPhase := 7 })))
      (fun t => t.dt == 4 && t.tickPhase == 0) = true := by decide

/-- Vector KT14. -/
theorem test_ldSt :
    after (step (withOp 0xF018 (withRegs [(0x0, 0x08)] idle)))
      (fun t => t.st == 8 && t.dt == 0) = true := by decide

/-- Vector IM3: mod 4096, no flag. -/
theorem test_addI_wraps :
    after (step (withOp 0xF21E (withRegs [(0x2, 0x02)] { idle with idx := 0xFFF })))
      (fun t => t.idx == 0x001 && readV t 0xF == 0x00) = true := by decide

/-- Vector IM5. -/
theorem test_ldF :
    after (step (withOp 0xF029 (withRegs [(0x0, 0x0F)] idle)))
      (fun t => t.idx == 0x04B) = true := by decide

/-- Vector IM6. -/
theorem test_ldF_no_digit :
    faults (step (withOp 0xF029 (withRegs [(0x0, 0x10)] idle))) .registerOutOfBounds = true := by decide

/-- Vector IM10: the last three bytes of RAM. -/
theorem test_ldB :
    after (step (withOp 0xF033 (withRegs [(0x0, 0xEA)] { idle with idx := 0xFFD })))
      (fun t => t.ram.read 0xFFD == 2 && t.ram.read 0xFFE == 3 && t.ram.read 0xFFF == 4) = true := by decide

/-- Vector IM11. -/
theorem test_ldB_at_end :
    faults (step (withOp 0xF033 (withRegs [(0x0, 0xEA)] { idle with idx := 0xFFE }))) .memoryOutOfBounds = true := by decide

/-- Vector IM12. -/
theorem test_store :
    after (step (withOp 0xF255 (withRegs [(0x0, 1), (0x1, 2), (0x2, 3), (0x3, 4)] { idle with idx := 0x400 })))
      (fun t => [0x400, 0x401, 0x402, 0x403].map t.ram.read == [1, 2, 3, 0] && t.idx == 0x400) = true := by decide

/-- Vector IM13: `BLOCK_INCLUSIVE` false. -/
theorem test_store_exclusive :
    after (step (withOp 0xF255 (withRegs [(0x0, 1), (0x1, 2), (0x2, 3)]
      { idle with idx := 0x400, config := { Config.defaults with blockInclusive := false } })))
      (fun t => [0x400, 0x401, 0x402].map t.ram.read == [1, 2, 0]) = true := by decide

/-- Vector IM19: the font's first sixteen bytes. -/
theorem test_load :
    after (step (withOp 0xFF65 idle))
      (fun t => t.v.toList == [0xF0, 0x90, 0x90, 0x90, 0xF0, 0x20, 0x60, 0x20, 0x20, 0x70, 0xF0, 0x10,
        0xF0, 0x80, 0xF0, 0xF0] && t.idx == 0x000) = true := by decide

/-- Vector IM20. -/
theorem test_load_at_end :
    faults (step (withOp 0xFF65 ({ idle with idx := 0xFF1 }))) .memoryOutOfBounds = true := by decide

/-! ### The step, the key wait, fault priority, reset and load -/

/-- Vectors SQ1, FP1: the fetch at 0xFFF faults before the decoder sees anything. -/
theorem test_fetch_at_end :
    faults (step (storeBytes 0xFFF [0xFF] { idle with pc := 0xFFF })) .memoryOutOfBounds = true := by decide

/-- Vector FP2: decode fails before the `pc` write. -/
theorem test_unknown_before_pc :
    faults (step (withOp 0xFFFF ({ idle with pc := 0xFFE }))) .unknownOpcode = true := by decide

/-- Vector FP4: the instruction's check comes before the `pc` write. -/
theorem test_digit_before_pc :
    faults (step (withOp 0xF029 (withRegs [(0x0, 0x10)] { idle with pc := 0xFFE }))) .registerOutOfBounds = true := by decide

/-- Vector SQ7: a timer at 0 stays there. -/
theorem test_tick_and_floor :
    after (step (withOp 0x0000 ({ idle with dt := 1, tickPhase := 7 })))
      (fun t => t.dt == 0 && t.st == 0 && t.tickPhase == 0 && t.pc == 0x202) = true := by decide

/-- Vector SQ9. -/
theorem test_key_latch :
    after (step (withOp 0x0000 (start (some 0xB) 0)))
      (fun t => t.pressedKey == some 0xB) = true := by decide

/-- Vector SQ14: nothing is fetched while waiting. -/
theorem test_wait_without_key :
    after (step (withOp 0xFFFF ({ idle with pc := 0x204, wait := .waitingForKey 0x3 })))
      (fun t => t.wait == .waitingForKey 0x3 && t.pc == 0x204 && t.tickPhase == 1) = true := by decide

/-- Vector SQ12. -/
theorem test_wait_with_key :
    after (step (withOp 0xFFFF ({ start (some 0x7) 0 with pc := 0x204, wait := .waitingForKey 0x3 })))
      (fun t => t.wait == .running && t.pc == 0x206 && readV t 0x3 == 0x07) = true := by decide

/-- Vector SQ13. -/
theorem test_wait_at_end :
    faults (step { start (some 0x7) 0 with pc := 0xFFE, wait := .waitingForKey 0x3 }) .memoryOutOfBounds = true := by decide

/-- Vector RL3: what a load resets and what it keeps. -/
theorem test_load_image :
    after (loadImage [0x00, 0xE0] 0x200 (storeBytes 0x300 [0xAA] (withPixel 1 1 (withRegs [(0x5, 0x77)]
      { idle with dt := 9, idx := 0x123, stack := [0x204], wait := .waitingForKey 0x2, tickPhase := 5 }))))
      (fun t => readV t 0x5 == 0 && t.dt == 0 && t.idx == 0 && t.stack == [] && pixels t [(1, 1)] == [false] &&
        t.wait == .running && t.tickPhase == 0 && t.pc == 0x200 && t.ram.read 0x201 == 0xE0 &&
        t.ram.read 0x300 == 0xAA) = true := by decide

/-- Vectors RL5, RL9: one byte too many. -/
theorem test_load_too_long :
    faults (loadImage [0xAA, 0xBB] 0xFFF idle) .dataOverflow = true := by decide

/-- R170: the codes of the faults. -/
theorem test_fault_codes : [Fault.unknownOpcode, .stackUnderflow, .stackOverflow, .memoryOutOfBounds,
    .registerOutOfBounds, .dataOverflow].map faultCode = [1, 2, 3, 4, 5, 6] := by decide

/-- The host's placing of a table word: the next step runs it. -/
theorem test_with_fetch_word :
    after (step ((start none 0).withFetchWord 16 0x6A05)) (fun t => readV t 0xA == 0x05) = true := by
  decide

/-- Vector RL2: with no base given the image goes to 0x200. -/
theorem test_load_default_base :
    after (serve (.load [0x12, 0x00] none) idle)
      (fun t => t.ram.read 0x200 == 0x12 && t.ram.read 0x201 == 0x00 && t.pc == 0x200) = true := by decide

/-- R186: inspection. -/
theorem test_inspect : (inspect { idle with st := 7, idx := 0x123 }).soundTimer = 7 ∧
    (inspect { idle with st := 7, idx := 0x123 }).indexRegister = 0x123 := by decide

/-! ### Witnesses: the hypotheses of the obligations can be met, at the edges of their ranges -/

/-- The idle state with `pc` at a place. -/
def pcAt (a : Addr) : State := { idle with pc := a }

theorem witness_DecodeOfEncode : WellFormed (.sys 0x0ED) = true ∧ WellFormed (.drw 0xF 0x0 0xF) = true := by
  decide

theorem witness_EncodeOfDecode : decode 0x0FFF = .ok (.sys 0xFFF) ∧ decode 0xF065 = .ok (.load 0x0) := by
  decide

theorem witness_UnknownOpcodesExactly :
    decode (0x5#4 ++ 0x0#4 ++ 0x0#4 ++ 0x1#4 : Opcode) = .error .unknownOpcode ∧
    decode (0x8#4 ++ 0x0#4 ++ 0x0#4 ++ 0xF#4 : Opcode) = .error .unknownOpcode ∧
    decode (0x9#4 ++ 0x0#4 ++ 0x0#4 ++ 0xF#4 : Opcode) = .error .unknownOpcode ∧
    decode (0xE#4 ++ 0x0#4 ++ 0xA#4 ++ 0x0#4 : Opcode) = .error .unknownOpcode ∧
    decode (0xF#4 ++ 0x0#4 ++ 0x6#4 ++ 0x4#4 : Opcode) = .error .unknownOpcode := by decide

theorem witness_TableRowsOverlapOnlyAtSys :
    (opcodeTable[1]?.map (rowMatches 0x00EE), opcodeTable[2]?.map (rowMatches 0x00EE)) =
      (some true, some true) := by decide

theorem witness_StepRunsDecodedInstruction :
    ((pcAt 0xFFF).wait = .running ∧ 4095 ≤ (pcAt 0xFFF).pc.toNat) ∧
    ((pcAt 0xFFE).wait = .running ∧ (pcAt 0xFFE).pc.toNat < 4095 ∧
      decode ((pcAt 0xFFE).ram.read 0xFFE ++ (pcAt 0xFFE).ram.read 0xFFF : Opcode) = .ok (.sys 0x000) ∧
      exec (.sys 0x000) (pcAt 0xFFE) = .fault .memoryOutOfBounds) ∧
    (∃ u, exec (.sys 0x000) (pcAt 0xFFD) = .next u) ∧
    (∃ e, decode ((withOp 0xFFFF (pcAt 0xFFE)).ram.read 0xFFE ++
      (withOp 0xFFFF (pcAt 0xFFE)).ram.read 0xFFF : Opcode) = .error e) :=
  ⟨by decide, ⟨rfl, by decide, by decide, rfl⟩, ⟨_, rfl⟩, ⟨.unknownOpcode, by decide⟩⟩

theorem witness_EveryCompletedStepTicks :
    (∃ t, step { idle with tickPhase := 7, dt := 1 } = .next t ∧ (t.tickPhase == 0) = true) ∧
    (∃ t, step { idle with tickPhase := 6, dt := 1 } = .next t ∧ (t.tickPhase == 7) = true) :=
  ⟨exists_of_after (by decide), exists_of_after (by decide)⟩

theorem witness_TimersCountOncePerDivider :
    idle.tickPhase < idle.config.timerDivider ∧
    { idle with tickPhase := 7 }.tickPhase < { idle with tickPhase := 7 }.config.timerDivider := by decide

theorem witness_KeyLatchIsWrittenAndNeverRead :
    ∃ t, step (start (some 0xF) 0) = .next t ∧ (t.pressedKey == some 0xF) = true :=
  exists_of_after (by decide)

theorem witness_FetchSeesStoredOpcode :
    (pcAt 0xFFE).pc.toNat + 1 < 4096 ∧ (pcAt 0xFFE).wait = .running ∧ decode 0x1200 = .ok (.jp 0x200) := by
  decide

theorem witness_ZeroedMemoryIsSteppedOver :
    (pcAt 0xFFD).wait = .running ∧ (pcAt 0xFFD).pc.toNat + 2 < 4096 ∧
    (pcAt 0xFFD).ram.read (pcAt 0xFFD).pc.toNat = 0 ∧
    (pcAt 0xFFD).ram.read ((pcAt 0xFFD).pc.toNat + 1) = 0 := by decide

theorem witness_ReturnGoesPastTheCall :
    idle.stack = [] ∧
    ({ idle with stack := [0x100, 0xFFD] }.stack = [0x100] ++ [0xFFD] ∧ (0xFFD : Addr).toNat + 2 < 4096) ∧
    ({ idle with stack := [0xFFE] }.stack = [] ++ [0xFFE] ∧ 4096 ≤ (0xFFE : Addr).toNat + 2) := by decide

/-- The two sides of the advance: it completes from 0xFFD and faults from 0xFFE. -/
theorem witness_advance : (pcAt 0xFFD).pc.toNat + 2 < 4096 ∧ 4096 ≤ (pcAt 0xFFE).pc.toNat + 2 := by decide

theorem witness_SysDoesNothing : (0x0E1 : Addr) ≠ 0x0E0 ∧ (0x0E1 : Addr) ≠ 0x0EE ∧
    (∃ t, exec (.sys 0x0E1) (pcAt 0xFFD) = .next t) ∧
    exec (.sys 0x0E1) (pcAt 0xFFE) = .fault .memoryOutOfBounds :=
  ⟨by decide, by decide, ⟨_, rfl⟩, rfl⟩

theorem witness_CallPushesItsOwnAddress :
    { idle with stack := List.replicate 15 0 }.stack.length < idle.config.stackDepth ∧
    idle.config.stackDepth ≤ { idle with stack := List.replicate 16 0 }.stack.length := by decide

theorem witness_SkipsOnLiteral :
    readV (pcAt 0xFFB) 0x1 = 0x00 ∧ (pcAt 0xFFB).pc.toNat + 4 < 4096 ∧
    readV (pcAt 0xFFC) 0x1 = 0x00 ∧ 4096 ≤ (pcAt 0xFFC).pc.toNat + 4 ∧
    readV (pcAt 0xFFD) 0x1 ≠ 0x01 ∧ (pcAt 0xFFD).pc.toNat + 2 < 4096 := by decide

theorem witness_SkipsOnRegisters :
    readV (pcAt 0xFFB) 0x1 = readV (pcAt 0xFFB) 0x2 ∧ (pcAt 0xFFB).pc.toNat + 4 < 4096 ∧
    readV (withRegs [(0x2, 1)] (pcAt 0xFFD)) 0x1 ≠ readV (withRegs [(0x2, 1)] (pcAt 0xFFD)) 0x2 ∧
    (withRegs [(0x2, 1)] (pcAt 0xFFD)).pc.toNat + 2 < 4096 := by decide

theorem witness_IndexedJumpAddsV0 :
    (readV (withRegs [(0x0, 1)] idle) 0x0).toNat + (0xFFE : Addr).toNat < 4096 ∧
    4096 ≤ (readV (withRegs [(0x0, 1)] idle) 0x0).toNat + (0xFFF : Addr).toNat := by decide

theorem witness_CallThenReturnRestores :
    { pcAt 0xFFD with stack := List.replicate 15 0 }.stack.length < idle.config.stackDepth ∧
    (pcAt 0xFFD).pc.toNat + 2 < 4096 := by decide

theorem witness_LoadsAndCopies :
    (∃ t, exec (.ldLit 0xF 0x2A) (pcAt 0xFFD) = .next t) ∧ (∃ t, exec (.ldReg 0xF 0x0) (pcAt 0xFFD) = .next t) ∧
    exec (.ldLit 0xF 0x2A) (pcAt 0xFFE) = .fault .memoryOutOfBounds ∧
    exec (.ldReg 0xF 0x0) (pcAt 0xFFE) = .fault .memoryOutOfBounds :=
  ⟨⟨_, rfl⟩, ⟨_, rfl⟩, rfl, rfl⟩

theorem witness_AddLiteralWritesNoFlag :
    (∃ t, exec (.addLit 0x0 0xFF) (pcAt 0xFFD) = .next t) ∧
    exec (.addLit 0x0 0xFF) (pcAt 0xFFE) = .fault .memoryOutOfBounds := ⟨⟨_, rfl⟩, rfl⟩

theorem witness_LogicWritesNoFlag :
    (∃ t, exec (.orReg 0xF 0x1) (pcAt 0xFFD) = .next t) ∧ (∃ t, exec (.andReg 0xF 0x1) (pcAt 0xFFD) = .next t) ∧
    (∃ t, exec (.xorReg 0xF 0x1) (pcAt 0xFFD) = .next t) ∧
    exec (.xorReg 0xF 0x1) (pcAt 0xFFE) = .fault .memoryOutOfBounds :=
  ⟨⟨_, rfl⟩, ⟨_, rfl⟩, ⟨_, rfl⟩, rfl⟩

/-- Both values of each flag, and both sides of the advance. -/
theorem witness_AddWithCarryOut :
    (readV (withRegs [(0x0, 0xFF), (0x1, 0x01)] (pcAt 0xFFD)) 0x0).toNat +
      (readV (withRegs [(0x0, 0xFF), (0x1, 0x01)] (pcAt 0xFFD)) 0x1).toNat > 255 ∧
    ¬(readV (withRegs [(0x0, 0xFE), (0x1, 0x01)] (pcAt 0xFFD)) 0x0).toNat +
      (readV (withRegs [(0x0, 0xFE), (0x1, 0x01)] (pcAt 0xFFD)) 0x1).toNat > 255 ∧
    (∃ t, exec (.addReg 0x0 0x1) (pcAt 0xFFD) = .next t) ∧
    exec (.addReg 0x0 0x1) (pcAt 0xFFE) = .fault .memoryOutOfBounds :=
  ⟨by decide, by decide, ⟨_, rfl⟩, rfl⟩

theorem witness_SubtractSetsStrictlyGreater :
    (readV (withRegs [(0x0, 1)] (pcAt 0xFFD)) 0x0).toNat > (readV (pcAt 0xFFD) 0x1).toNat ∧
    ¬(readV (pcAt 0xFFD) 0x0).toNat > (readV (pcAt 0xFFD) 0x1).toNat ∧
    (∃ t, exec (.sub 0x0 0x1) (pcAt 0xFFD) = .next t) ∧
    exec (.sub 0x0 0x1) (pcAt 0xFFE) = .fault .memoryOutOfBounds :=
  ⟨by decide, by decide, ⟨_, rfl⟩, rfl⟩

theorem witness_ShiftRightFlagsBitZero :
    idle.config.shiftUsesVy = true ∧
    { idle with config := { Config.defaults with shiftUsesVy := false } }.config.shiftUsesVy ≠ true ∧
    (∃ t, exec (.shr 0x0 0x1) (pcAt 0xFFD) = .next t) ∧
    exec (.shr 0x0 0x1) (pcAt 0xFFE) = .fault .memoryOutOfBounds :=
  ⟨by decide, by decide, ⟨_, rfl⟩, rfl⟩

theorem witness_ReverseSubtractFlagsLast :
    (readV (withRegs [(0x1, 1)] (pcAt 0xFFD)) 0x1).toNat > (readV (withRegs [(0x1, 1)] (pcAt 0xFFD)) 0x0).toNat ∧
    ¬(readV (pcAt 0xFFD) 0x1).toNat > (readV (pcAt 0xFFD) 0x0).toNat ∧
    (∃ t, exec (.subn 0xF 0x1) (pcAt 0xFFD) = .next t) ∧
    exec (.subn 0xF 0x1) (pcAt 0xFFE) = .fault .memoryOutOfBounds :=
  ⟨by decide, by decide, ⟨_, rfl⟩, rfl⟩

theorem witness_ShiftLeftFlagsBitSeven :
    128 ≤ (readV (withRegs [(0x0, 0x80)] (pcAt 0xFFD)) 0x0).toNat ∧
    ¬128 ≤ (readV (withRegs [(0x0, 0x7F)] (pcAt 0xFFD)) 0x0).toNat ∧
    (∃ t, exec (.shl 0x0 0x1) (pcAt 0xFFD) = .next t) ∧
    exec (.shl 0x0 0x1) (pcAt 0xFFE) = .fault .memoryOutOfBounds :=
  ⟨by decide, by decide, ⟨_, rfl⟩, rfl⟩

theorem witness_RandomByteIsMasked :
    (∃ t, exec (.rnd 0x0 0x0F) (pcAt 0xFFD) = .next t) ∧
    exec (.rnd 0x0 0x0F) (pcAt 0xFFE) = .fault .memoryOutOfBounds ∧
    (start none 0xB7).hostIn = ⟨none, 0xB7⟩ :: [] := ⟨⟨_, rfl⟩, rfl, rfl⟩

theorem witness_FlagRegisterAsDestination :
    (∃ t, exec (.addReg 0xF 0x0) idle = .next t) ∧ (∃ t, exec (.sub 0xF 0x0) idle = .next t) ∧
    (∃ t, exec (.shr 0xF 0x0) idle = .next t) ∧ (∃ t, exec (.subn 0xF 0x0) idle = .next t) ∧
    (∃ t, exec (.shl 0xF 0x0) idle = .next t) := ⟨⟨_, rfl⟩, ⟨_, rfl⟩, ⟨_, rfl⟩, ⟨_, rfl⟩, ⟨_, rfl⟩⟩

theorem witness_LoadIndexLiteral :
    (∃ t, exec (.ldI 0xFFF) (pcAt 0xFFD) = .next t) ∧
    exec (.ldI 0xFFF) (pcAt 0xFFE) = .fault .memoryOutOfBounds := ⟨⟨_, rfl⟩, rfl⟩

theorem witness_AddToIndexWraps :
    (∃ t, exec (.addI 0x2) { pcAt 0xFFD with idx := 0xFFF } = .next t) ∧
    exec (.addI 0x2) (pcAt 0xFFE) = .fault .memoryOutOfBounds := ⟨⟨_, rfl⟩, rfl⟩

theorem witness_FontPointerOrFault :
    ((readV (withRegs [(0x0, 15)] (pcAt 0xFFD)) 0x0).toNat ≤ 15 ∧
      (withRegs [(0x0, 15)] (pcAt 0xFFD)).pc.toNat + 2 < 4096) ∧
    15 < (readV (withRegs [(0x0, 16)] (pcAt 0xFFE)) 0x0).toNat := by decide

/-- The last address for three bytes, the first too high, and the advance that faults. -/
theorem witness_DecimalDigitsAreStored :
    (∃ t, exec (.ldB 0x0) { pcAt 0xFFD with idx := 0xFFD } = .next t) ∧
    exec (.ldB 0x0) { pcAt 0xFFD with idx := 0xFFE } = .fault .memoryOutOfBounds ∧
    exec (.ldB 0x0) { pcAt 0xFFE with idx := 0x300 } = .fault .memoryOutOfBounds :=
  ⟨(exists_of_after (p := fun _ => true) (by decide)).imp fun _ h => h.1, eq_of_faults (by decide),
    eq_of_faults (by decide)⟩

/-- A machine whose block transfers leave `Vx` out. -/
def exclusive (s : State) : State := { s with config := { Config.defaults with blockInclusive := false } }

theorem witness_BlockStore :
    (∃ t, exec (.store 0xF) { pcAt 0xFFD with idx := 0xFF0 } = .next t) ∧
    (∃ t, exec (.store 0x0) (exclusive { pcAt 0xFFD with idx := 0xFFF }) = .next t) ∧
    exec (.store 0xF) { pcAt 0xFFD with idx := 0xFF1 } = .fault .memoryOutOfBounds ∧
    exec (.store 0x0) (exclusive (pcAt 0xFFE)) = .fault .memoryOutOfBounds :=
  ⟨(exists_of_after (p := fun _ => true) (by decide)).imp fun _ h => h.1,
    (exists_of_after (p := fun _ => true) (by decide)).imp fun _ h => h.1, eq_of_faults (by decide),
    eq_of_faults (by decide)⟩

theorem witness_BlockLoad :
    { pcAt 0xFFD with idx := 0xFF0 }.idx.toNat + 16 ≤ 4096 ∧
    4096 < { pcAt 0xFFD with idx := 0xFF1 }.idx.toNat + 16 ∧
    (exclusive { pcAt 0xFFD with idx := 0xFFF }).idx.toNat + 0 ≤ 4096 ∧
    blockCount idle 0xF = 16 ∧ blockCount (exclusive idle) 0x0 = 0 := by decide

theorem witness_ClearScreen :
    (∃ t, exec .cls (withPixel 3 5 (pcAt 0xFFD)) = .next t) ∧
    exec .cls (pcAt 0xFFE) = .fault .memoryOutOfBounds := ⟨⟨_, rfl⟩, rfl⟩

/-- The last sprite address, the first too high, no rows at all, and the advance that faults; a draw that
collides and one that does not. -/
theorem witness_DrawInvertsSpritePixels :
    (∃ t, exec (.drw 0x1 0x2 0x1) { pcAt 0xFFD with idx := 0xFFF } = .next t) ∧
    (∃ t, exec (.drw 0x1 0x2 0x0) { pcAt 0xFFD with idx := 0xFFF } = .next t) ∧
    exec (.drw 0x1 0x2 0x2) { pcAt 0xFFD with idx := 0xFFF } = .fault .memoryOutOfBounds ∧
    exec (.drw 0x1 0x2 0x1) (pcAt 0xFFE) = .fault .memoryOutOfBounds ∧
    (∃ t, exec (.drw 0x1 0x2 0x1) (withPixel 0 0 idle) = .next t ∧
      (pixels t [(0, 0), (0, 3)] == [false, true] && readV t 0xF == 1) = true) :=
  ⟨(exists_of_after (p := fun _ => true) (by decide)).imp fun _ h => h.1,
    (exists_of_after (p := fun _ => true) (by decide)).imp fun _ h => h.1, eq_of_faults (by decide),
    eq_of_faults (by decide), exists_of_after (by decide)⟩

/-- The top row of glyph 0 (0xF0) drawn on a dark display, then again by the state the first draw left. -/
theorem witness_DrawingTwiceRestores :
    (∀ r c, Display.pixel idle.display r c = false) ∧ idle.ram.read idle.idx.toNat ≠ 0 ∧
    ∃ t u, exec (.drw 0x1 0x2 0x1) idle = .next t ∧ t.ram = idle.ram ∧ t.idx = idle.idx ∧
      readV t 0x1 = readV idle 0x1 ∧ readV t 0x2 = readV idle 0x2 ∧
      exec (.drw 0x1 0x2 0x1) t = .next u := by
  refine ⟨fun r c => ?_, by decide, ?_⟩
  · simp [Display.pixel, idle, start, State.reset, darkDisplay]
  · have h : after (exec (.drw 0x1 0x2 0x1) idle) (fun t => t.ram == idle.ram && (t.idx == idle.idx &&
        (readV t 0x1 == readV idle 0x1 && (readV t 0x2 == readV idle 0x2 &&
        after (exec (.drw 0x1 0x2 0x1) t) fun _ => true)))) = true := by decide
    obtain ⟨t, h1, h2⟩ := exists_of_after h
    simp only [Bool.and_eq_true, beq_iff_eq] at h2
    obtain ⟨u, h3, _⟩ := exists_of_after h2.2.2.2.2
    exact ⟨t, u, h1, h2.1, h2.2.1, h2.2.2.1, h2.2.2.2.1, h3⟩

theorem witness_SkipsOnKey :
    (∃ k, keyIn (withRegs [(0x4, 0x07)] (start (some 0x7) 0)) = some k ∧
      k.toNat = (readV (withRegs [(0x4, 0x07)] (start (some 0x7) 0)) 0x4).toNat) ∧
    (∀ k, keyIn (withRegs [(0x4, 0x17)] (start (some 0x7) 0)) = some k →
      k.toNat ≠ (readV (withRegs [(0x4, 0x17)] (start (some 0x7) 0)) 0x4).toNat) ∧
    (∀ k, keyIn idle = some k → k.toNat ≠ (readV idle 0x4).toNat) ∧
    (start (some 0x7) 0).hostIn = ⟨some 0x7, 0⟩ :: [] :=
  ⟨⟨0x7, by decide, by decide⟩, by decide, by decide, rfl⟩

theorem witness_ReadDelayTimer :
    (∃ t, exec (.ldFromDt 0xF) (pcAt 0xFFD) = .next t) ∧
    exec (.ldFromDt 0xF) (pcAt 0xFFE) = .fault .memoryOutOfBounds := ⟨⟨_, rfl⟩, rfl⟩

theorem witness_SetTimers :
    (∃ t, exec (.ldDt 0xF) (pcAt 0xFFD) = .next t) ∧ (∃ t, exec (.ldSt 0xF) (pcAt 0xFFD) = .next t) ∧
    exec (.ldDt 0xF) (pcAt 0xFFE) = .fault .memoryOutOfBounds ∧
    exec (.ldSt 0xF) (pcAt 0xFFE) = .fault .memoryOutOfBounds := ⟨⟨_, rfl⟩, ⟨_, rfl⟩, rfl, rfl⟩

theorem witness_KeyWait :
    ({ pcAt 0xFFE with wait := .waitingForKey 0x3 }.wait = .waitingForKey 0x3 ∧ keyIn idle = none) ∧
    (keyIn { start (some 0xF) 0 with pc := 0xFFD, wait := .waitingForKey 0x3 } = some 0xF ∧
      (0xFFD : Addr).toNat + 2 < 4096) ∧
    (keyIn { start (some 0xF) 0 with pc := 0xFFE, wait := .waitingForKey 0x3 } = some 0xF ∧
      4096 ≤ (0xFFE : Addr).toNat + 2) := by decide

theorem witness_OnlyTheseInstructionsWrite :
    (∃ t, exec (.ldB 0x0) (withRegs [(0x0, 1)] { idle with idx := 0x300 }) = .next t ∧
      (t.ram != idle.ram) = true) ∧
    (∃ t, exec (.ldI 0x001) idle = .next t ∧ (t.idx != idle.idx) = true) ∧
    (∃ t, exec (.call 0x300) idle = .next t ∧ (t.stack != idle.stack) = true) ∧
    (∃ t, exec (.ldDt 0x0) (withRegs [(0x0, 1)] idle) = .next t ∧ (t.dt != idle.dt) = true) ∧
    (∃ t, exec (.ldSt 0x0) (withRegs [(0x0, 1)] idle) = .next t ∧ (t.st != idle.st) = true) ∧
    (∃ t, exec (.drw 0x1 0x2 0x1) idle = .next t ∧
      (pixels t [(0, 0)] != pixels idle [(0, 0)]) = true) ∧
    (∃ t, exec (.ldKey 0x0) idle = .next t ∧ (t.wait != idle.wait) = true) :=
  ⟨exists_of_after (by decide), exists_of_after (by decide), exists_of_after (by decide),
    exists_of_after (by decide), exists_of_after (by decide), exists_of_after (by decide),
    exists_of_after (by decide)⟩

/-- Each clause: an instruction that stores nothing; a byte below and one above the three of `LD B`; the
same for a block store up to `V2`; and, where `BLOCK_INCLUSIVE` is false, byte `I` itself for `x = 0`. -/
theorem witness_BytesOutsideStoresAreKept :
    (∃ t, exec (.load 0xF) idle = .next t) ∧
    (∃ t, exec (.ldB 0x0) { idle with idx := 0x300 } = .next t) ∧
    (∃ t, exec (.store 0x2) { idle with idx := 0x300 } = .next t) ∧
    (∃ t, exec (.store 0x0) (exclusive { idle with idx := 0x300 }) = .next t) ∧
    (0x2FF < (0x300 : Addr).toNat ∧ (0x300 : Addr).toNat + 3 ≤ 0x303 ∧
      (0x300 : Addr).toNat + blockCount { idle with idx := 0x300 } 0x2 ≤ 0x303 ∧
      (0x300 : Addr).toNat + blockCount (exclusive { idle with idx := 0x300 }) 0x0 ≤ 0x300) :=
  ⟨(exists_of_after (p := fun _ => true) (by decide)).imp fun _ h => h.1,
    (exists_of_after (p := fun _ => true) (by decide)).imp fun _ h => h.1,
    (exists_of_after (p := fun _ => true) (by decide)).imp fun _ h => h.1,
    (exists_of_after (p := fun _ => true) (by decide)).imp fun _ h => h.1, by decide⟩

theorem witness_OnlyTheseInstructionsWriteTheFlag :
    ∃ t, exec (.shr 0x0 0x1) (withRegs [(0x0, 1)] idle) = .next t ∧ (readV t 0xF != readV idle 0xF) = true :=
  exists_of_after (by decide)

/-- Each clause: a fault of an instruction; a row's fault, for `JP V0` from its least `nnn` on and below it;
a wait turn; and the three places of a running step. -/
theorem witness_FaultsAreThoseOfTheTable :
    exec .ret idle = .fault .stackUnderflow ∧
    (Fault.memoryOutOfBounds ∈ mayRaise (.jpV0 0xF01) ∧ 0xF01 ≤ (0xF01 : Addr).toNat ∧
      exec (.jpV0 0xF01) (withRegs [(0x0, 0xFF)] idle) = .fault .memoryOutOfBounds) ∧
    ((0xF00 : Addr).toNat < 0xF01 ∧ ∃ t, exec (.jpV0 0xF00) (withRegs [(0x0, 0xFF)] idle) = .next t) ∧
    step { start (some 0x0) 0 with pc := 0xFFE, wait := .waitingForKey 0x3 } = .fault .memoryOutOfBounds ∧
    step (pcAt 0xFFF) = .fault .memoryOutOfBounds ∧ step (withOp 0xFFFF idle) = .fault .unknownOpcode ∧
    step (withOp 0x00EE idle) = .fault .stackUnderflow :=
  ⟨eq_of_faults (by decide), ⟨by decide, by decide, eq_of_faults (by decide)⟩,
    ⟨by decide, (exists_of_after (p := fun _ => true) (by decide)).imp fun _ h => h.1⟩,
    eq_of_faults (by decide), eq_of_faults (by decide), eq_of_faults (by decide), eq_of_faults (by decide)⟩

theorem witness_FaultsChangeNothing :
    serve (.load [0, 0] (some 0xFFF)) idle = .fault .dataOverflow ∧
    serve (.step ⟨some 0xF, 0xFF⟩) (pcAt 0xFFF) = .fault .memoryOutOfBounds :=
  ⟨eq_of_faults (by decide), eq_of_faults (by decide)⟩

/-- A running machine at no `RND`, and a waiting one. -/
theorem witness_RandomByteIsReadByRndOnly :
    (idle.wait = .running ∧ ∀ x kk,
      decode (joinBytes (idle.ram.read idle.pc.toNat) (idle.ram.read (idle.pc.toNat + 1))) ≠ .ok (.rnd x kk)) ∧
    { idle with wait := .waitingForKey 0x3 }.wait ≠ .running := by
  have h : decode (joinBytes (idle.ram.read idle.pc.toNat) (idle.ram.read (idle.pc.toNat + 1))) =
      .ok (.sys 0x000) := by decide
  exact ⟨⟨rfl, fun x kk => by simp [h]⟩, by decide⟩

theorem witness_KeyIsReadBySkipsAndWaitOnly :
    idle.wait = .running ∧
    (∀ x, decode (joinBytes (idle.ram.read idle.pc.toNat) (idle.ram.read (idle.pc.toNat + 1))) ≠ .ok (.skp x)) ∧
    (∀ x, decode (joinBytes (idle.ram.read idle.pc.toNat) (idle.ram.read (idle.pc.toNat + 1))) ≠ .ok (.sknp x)) ∧
    ∃ t, step { idle with hostIn := [⟨some 0x7, 0⟩] } = .next t ∧ (t.pressedKey == some 0x7) = true := by
  have h : decode (joinBytes (idle.ram.read idle.pc.toNat) (idle.ram.read (idle.pc.toNat + 1))) =
      .ok (.sys 0x000) := by decide
  exact ⟨rfl, fun x => by simp [h], fun x => by simp [h], exists_of_after (by decide)⟩

/-- A full stack but for one place, the last phase, memory listed: the step of a `CALL` from it. -/
theorem witness_StepKeepsInvariant :
    ∃ s t : State, Invariant s ∧ step s = .next t ∧ (t.stack.length == 16 && t.tickPhase == 0) = true :=
  ⟨withOp 0x2210 { idle with stack := List.replicate 15 0x300, tickPhase := 7 },
    (exists_of_after (p := fun t => t.stack.length == 16 && t.tickPhase == 0) (by decide)).imp
      fun _ h => ⟨⟨by decide, by decide, by decide, ⟨by decide, by decide⟩⟩, h.1, h.2⟩⟩

/-- The smallest parameters R6 allows. -/
theorem witness_ResetMeetsInvariant :
    paramsOk { stackDepth := 1, timerDivider := 1, shiftUsesVy := false, blockInclusive := false } :=
  ⟨by decide, by decide⟩

theorem witness_EveryServedStateMeetsInvariant :
    Invariant (withOp 0x2210 { idle with stack := List.replicate 16 0x300 }) :=
  ⟨by decide, by decide, by decide, ⟨by decide, by decide⟩⟩

theorem witness_CanonicalMemoriesThatReadAlikeAreEqual :
    Memory.wf [(0x000, 0xFF), (0xFFF, 0x01)] ∧
    ∀ a, Memory.read [(0x000, 0xFF), (0xFFF, 0x01)] a =
      Memory.read (Memory.write (Memory.write [] 0xFFF 0x01) 0x000 0xFF) a := by
  have h : Memory.write (Memory.write [] 0xFFF 0x01) 0x000 0xFF = [(0x000, 0xFF), (0xFFF, 0x01)] := by decide
  exact ⟨by decide, fun a => by rw [h]⟩

theorem witness_ResetState : State.reset ∈ [resetMachine (pcAt 0x300), State.reset] := by simp

theorem witness_LoadCopiesImageAndResets :
    4096 < [0xAA, 0xBB].length + 0xFFF ∧ [0xAA].length + 0xFFF ≤ 4096 ∧ ([] : List Byte).length + 4096 ≤ 4096 := by
  decide

theorem witness_LoadFailsExactlyWhenTooLong :
    [0xAA, 0xBB].length + 0xFFF > 4096 ∧ [0xAA].length + 0xFFF ≤ 4096 := by decide

theorem witness_LoadWithoutBaseIsAt200 :
    3584 < (List.replicate 3585 (0 : Byte)).length ∧ (List.replicate 3584 (0 : Byte)).length ≤ 3584 := by
  rw [List.length_replicate, List.length_replicate]; decide

end Sys2Proof.Tests
end

namespace Sys2Proof

/-- A field of `n` bits from bit `lo` up, as an unsigned number, is R62's "shift right, then mask",
for any mask whose value is `2 ^ n - 1`. -/
theorem toNat_extractLsb'_eq_shift_and {n : Nat} (lo : Nat) (w mask : Opcode)
    (hmask : mask.toNat = 2 ^ n - 1) :
    (w.extractLsb' lo n).toNat = ((w >>> lo) &&& mask).toNat := by
  rw [BitVec.extractLsb'_toNat, BitVec.toNat_and, hmask, Nat.and_two_pow_sub_one_eq_mod,
    BitVec.toNat_ushiftRight]

/-- The same for a field that starts at bit 0, which R62 writes without a shift. -/
theorem toNat_extractLsb'_zero_eq_and {n : Nat} (w mask : Opcode)
    (hmask : mask.toNat = 2 ^ n - 1) :
    (w.extractLsb' 0 n).toNat = (w &&& mask).toNat := by
  rw [toNat_extractLsb'_eq_shift_and 0 w mask hmask, BitVec.ushiftRight_zero]

/-- Settles O1: each of R62's fields is `extractLsb'` at its place, so it is the shift and the mask
of its width. -/
theorem operandFieldFormulas : Obligations.OperandFieldFormulas := by
  intro w
  refine ⟨?nnn, ?x, ?y, ?kk, ?n⟩
  case nnn => exact toNat_extractLsb'_zero_eq_and w 0x0FFF rfl
  case x => exact toNat_extractLsb'_eq_shift_and 8 w 0xF rfl
  case y => exact toNat_extractLsb'_eq_shift_and 4 w 0xF rfl
  case kk => exact toNat_extractLsb'_zero_eq_and w 0xFF rfl
  case n => exact toNat_extractLsb'_zero_eq_and w 0xF rfl

end Sys2Proof

namespace Sys2Proof

open Machine

/-! ### The decoder on the opcode of an instruction -/

/-- R63: every row but that of `SYS` (place 2) differs from each earlier row in a bit both fix. -/
theorem earlier_pattern_disagrees :
    ∀ j : Fin opcodeTable.length, j.val ≠ 2 → ∀ k : Fin opcodeTable.length, k < j →
      opcodeTable[k].pattern &&& opcodeTable[j].mask ≠
        opcodeTable[j].pattern &&& opcodeTable[k].mask := by
  decide

/-- An instruction other than `SYS` is decoded from its opcode: its own row takes the opcode, and no
earlier row does. -/
theorem decode_encode_of_ownRow {i : Instr} (h : Laws.OwnRow.Statement i)
    (hsys : Laws.OwnRow.rowNumber i ≠ 2) : decode (encode i) = .ok i := by
  obtain ⟨r, hr, hmatch, hmake⟩ := h
  refine (decode_ok_iff _ _).mpr ⟨_, r, hr, hmatch, hmake, fun k q hk hq => ?_⟩
  obtain ⟨hj, rfl⟩ := List.getElem?_eq_some_iff.mp hr
  obtain ⟨hk', rfl⟩ := List.getElem?_eq_some_iff.mp hq
  exact Bool.eq_false_iff.mpr fun hmatch' =>
    earlier_pattern_disagrees ⟨_, hj⟩ hsys ⟨k, hk'⟩ hk (pattern_agree hmatch' hmatch)

/-! ### Control flow (41_control_flow.md) -/

/-- A skip whose bit says whether `p` holds goes on by 4 where `p` holds and by 2 where it does not. -/
theorem goesTo_of_skipIf_iff {i : Instr} {s : State} {b : Bool} {p : Prop} [Decidable p]
    (h : exec i s = skipIf b s) (hb : b = true ↔ p) :
    GoesTo i s (if p then s.pc.toNat + 4 else s.pc.toNat + 2) := by
  simpa only [hb] using goesTo_of_skipIf h

/-- Settles O18: both are skips, on the equality of `Vx` and the literal and on its negation. -/
theorem skipsOnLiteral : Obligations.SkipsOnLiteral := by
  intro x kk
  refine ⟨?decodeSe, ?decodeSne, fun s => ⟨?se, ?sne⟩⟩
  case decodeSe => exact decode_encode_of_ownRow (Laws.OwnRow.seLit x kk) nofun
  case decodeSne => exact decode_encode_of_ownRow (Laws.OwnRow.sneLit x kk) nofun
  case se => exact goesTo_of_skipIf_iff rfl beq_iff_eq
  case sne => exact goesTo_of_skipIf_iff rfl bne_iff_ne

/-- Settles O19: both are skips, on the equality of the two registers and on its negation. -/
theorem skipsOnRegisters : Obligations.SkipsOnRegisters := by
  intro x y
  refine ⟨?decodeSe, ?decodeSne, fun s => ⟨?se, ?sne⟩⟩
  case decodeSe => exact decode_encode_of_ownRow (Laws.OwnRow.seReg x y) nofun
  case decodeSne => exact decode_encode_of_ownRow (Laws.OwnRow.sneReg x y) nofun
  case se => exact goesTo_of_skipIf_iff rfl beq_iff_eq
  case sne => exact goesTo_of_skipIf_iff rfl bne_iff_ne

/-- `RET` with an entry on the stack is a checked jump 2 beyond the top entry, with that removed. -/
theorem exec_ret_concat {s : State} {l : List Addr} {a : Addr} (h : s.stack = l ++ [a]) :
    exec .ret s = jumpTo (a.toNat + 2) (writeStack l s) :=
  pop_concat _ l a h

/-- Settles O14: an empty stack faults in the pop, any other leads to a checked jump. -/
theorem returnGoesPastTheCall : Obligations.ReturnGoesPastTheCall := by
  refine ⟨decode_encode_of_ownRow Laws.OwnRow.ret nofun, fun s => ⟨pop_empty _, fun l a hs => ⟨?_, ?_⟩⟩⟩
  · intro hlt
    exact ⟨_, (exec_ret_concat hs).trans (jumpTo_of_lt _ hlt), toNat_target hlt, rfl⟩
  · intro hge
    exact (exec_ret_concat hs).trans (jumpTo_of_ge _ hge)

/-- Settles O20: the jump is one checked write of `pc` with the unreduced sum. -/
theorem indexedJumpAddsV0 : Obligations.IndexedJumpAddsV0 := by
  intro nnn
  exact ⟨decode_encode_of_ownRow (Laws.OwnRow.jpV0 nnn) nofun, fun _ => goesTo_of_jumpTo rfl⟩

end Sys2Proof

namespace Sys2Proof

open Machine

/-! ### The decoder on an opcode written out by its fields (R61) -/

/-- `decode_encode_of_ownRow` for an opcode written out as its fields. -/
theorem decode_of_ownRow {i : Instr} (w : Opcode) (hw : encode i = w) (h : Laws.OwnRow.Statement i)
    (hsys : Laws.OwnRow.rowNumber i ≠ 2) : decode w = .ok i :=
  hw ▸ decode_encode_of_ownRow h hsys

/-! ### Registers and ALU (42_alu.md): the shapes of the register writes -/

/-- An advance after one register write sets that register and keeps the others. -/
theorem setsRegs_of_writeV {i : Instr} {s : State} {x : Reg} {u u' : Byte}
    (h : exec i s = advance (writeV x u s)) (hu : u = u') :
    SetsRegs i s (fun r => if r = x then u' else readV s r) := by
  subst hu
  exact setsRegs_of_advance h rfl fun r => readV_writeV x r u s

/-- R133, flag first: the result, written last, is what stays in `VF` where it is the destination. -/
theorem setsRegs_of_flag_then_result {i : Instr} {s : State} {x : Reg} {u u' b b' : Byte}
    (h : exec i s = advance (writeV x u (writeVF b s))) (hu : u = u') (hb : b = b') :
    SetsRegs i s (fun r => if r = x then u' else if r = 0xF then b' else readV s r) := by
  subst hu hb
  refine setsRegs_of_advance h rfl fun r => ?_
  rw [readV_writeV, readV_writeVF]

/-- R133, result first: the flag, written last, is what stays in `VF` where it is the destination. -/
theorem setsRegs_of_result_then_flag {i : Instr} {s : State} {x : Reg} {u u' b b' : Byte}
    (h : exec i s = advance (writeVF b (writeV x u s))) (hu : u = u') (hb : b = b') :
    SetsRegs i s (fun r => if r = 0xF then b' else if r = x then u' else readV s r) := by
  subst hu hb
  refine setsRegs_of_advance h rfl fun r => ?_
  rw [readV_writeVF, readV_writeV]

/-! ### The results and flags as unsigned numbers -/

/-- The sum of two bytes is that of their numbers, mod 256 (R122, R127). -/
theorem byte_add_eq_ofNat (a b : Byte) : a + b = BitVec.ofNat 8 ((a.toNat + b.toNat) % 256) := by
  apply BitVec.eq_of_toNat_eq
  rw [BitVec.toNat_add, BitVec.toNat_ofNat, Nat.mod_mod]

/-- The difference of two bytes is that of their numbers, mod 256 (R128, R130). -/
theorem byte_sub_eq_ofNat (a b : Byte) :
    a - b = BitVec.ofNat 8 ((a.toNat + 256 - b.toNat) % 256) := by
  apply BitVec.eq_of_toNat_eq
  rw [BitVec.toNat_sub, BitVec.toNat_ofNat, Nat.mod_mod]
  have hb : b.toNat < 256 := b.isLt
  congr 1
  omega

/-- A byte shifted left by one is twice its number, mod 256 (R131). -/
theorem byte_shiftLeft_one_eq_ofNat (a : Byte) :
    a <<< 1 = BitVec.ofNat 8 (a.toNat * 2 % 256) := by
  apply BitVec.eq_of_toNat_eq
  rw [BitVec.toNat_shiftLeft, BitVec.toNat_ofNat, Nat.mod_mod, Nat.shiftLeft_eq, pow_one]

/-- The flag byte of a condition is 1 where it holds, else 0 (R13). -/
theorem flagByte_decide (p : Prop) [Decidable p] : flagByte (decide p) = if p then 1 else 0 := by
  by_cases hp : p <;> simp [flagByte, hp]

/-- Bit 7 of a byte is set exactly where its number is 128 or more (R131). -/
theorem highFlag_eq (a : Byte) : highFlag a = if 128 ≤ a.toNat then 1 else 0 := by
  have hbit : a.getLsbD 7 = decide (128 ≤ a.toNat) := by
    rw [← BitVec.msb_eq_getLsbD_last, BitVec.msb_eq_decide]
  rw [highFlag, hbit, flagByte_decide]

/-! ### Registers and ALU: the statements -/

/-- Settles O23: one register write, of the sum mod 256. -/
theorem addLiteralWritesNoFlag : Obligations.AddLiteralWritesNoFlag := fun x kk =>
  ⟨decode_of_ownRow _ rfl (Laws.OwnRow.addLit x kk) nofun, fun _ =>
    setsRegs_of_writeV rfl (byte_add_eq_ofNat _ _)⟩

/-- Settles O25: the carry is written first, then the sum mod 256. -/
theorem addWithCarryOut : Obligations.AddWithCarryOut := fun x y =>
  ⟨decode_of_ownRow _ rfl (Laws.OwnRow.addReg x y) nofun, fun _ =>
    setsRegs_of_flag_then_result rfl (byte_add_eq_ofNat _ _) (flagByte_decide _)⟩

/-- Settles O26: the comparison is written first, then the difference mod 256. -/
theorem subtractSetsStrictlyGreater : Obligations.SubtractSetsStrictlyGreater := fun x y =>
  ⟨decode_of_ownRow _ rfl (Laws.OwnRow.sub x y) nofun, fun _ =>
    setsRegs_of_flag_then_result rfl (byte_sub_eq_ofNat _ _) (flagByte_decide _)⟩

/-- Settles O28: the reverse difference mod 256 is written first, then the comparison. -/
theorem reverseSubtractFlagsLast : Obligations.ReverseSubtractFlagsLast := fun x y =>
  ⟨decode_of_ownRow _ rfl (Laws.OwnRow.subn x y) nofun, fun _ =>
    setsRegs_of_result_then_flag rfl (byte_sub_eq_ofNat _ _) (flagByte_decide _)⟩

/-- Settles O29: bit 7 of `Vx` is written first, then the shift's source doubled mod 256. -/
theorem shiftLeftFlagsBitSeven : Obligations.ShiftLeftFlagsBitSeven := fun x y =>
  ⟨decode_of_ownRow _ rfl (Laws.OwnRow.shl x y) nofun, fun s =>
    setsRegs_of_flag_then_result rfl (byte_shiftLeft_one_eq_ofNat (shiftSource s x y))
      (highFlag_eq _)⟩

/-- Settles O22: each is one register write, of the literal or of the old `Vy`. -/
theorem loadsAndCopies : Obligations.LoadsAndCopies := by
  refine ⟨fun x kk => ⟨?decodeLit, fun s => ?lit⟩, fun x y => ⟨?decodeReg, fun s => ?reg⟩⟩
  case decodeLit => exact decode_of_ownRow _ rfl (Laws.OwnRow.ldLit x kk) nofun
  case lit => exact setsRegs_of_writeV rfl rfl
  case decodeReg => exact decode_of_ownRow _ rfl (Laws.OwnRow.ldReg x y) nofun
  case reg => exact setsRegs_of_writeV rfl rfl

/-- Settles O24: each is one register write, of the bits combined. -/
theorem logicWritesNoFlag : Obligations.LogicWritesNoFlag := by
  intro x y
  refine ⟨?decodeOr, ?decodeAnd, ?decodeXor, fun s => ⟨?or, ?and, ?xor⟩⟩
  case decodeOr => exact decode_of_ownRow _ rfl (Laws.OwnRow.orReg x y) nofun
  case decodeAnd => exact decode_of_ownRow _ rfl (Laws.OwnRow.andReg x y) nofun
  case decodeXor => exact decode_of_ownRow _ rfl (Laws.OwnRow.xorReg x y) nofun
  case or => exact setsRegs_of_writeV rfl rfl
  case and => exact setsRegs_of_writeV rfl rfl
  case xor => exact setsRegs_of_writeV rfl rfl

end Sys2Proof

namespace Sys2Proof

open Machine

/-! ### Index and memory (43_index_memory.md): the instructions that write `I` -/

/-- An advance after one write of `I` changes `I` and `pc` alone. -/
theorem becomes_of_writeI {i : Instr} {s : State} {a a' : Addr}
    (h : exec i s = advance (writeI a s)) (ha : a = a') : Becomes i s { s with idx := a' } := by
  subst ha
  exact becomes_of_advance h rfl

/-- The index sum is that of the unsigned numbers, mod 4096 (R142): a byte keeps its number when it
is widened to an address. -/
theorem indexSum_eq_ofNat (a : Addr) (u : Byte) :
    indexSum a u = BitVec.ofNat 12 ((a.toNat + u.toNat) % 4096) := by
  have hwiden : (u.setWidth 12).toNat = u.toNat := BitVec.toNat_setWidth_of_le (by decide)
  apply BitVec.eq_of_toNat_eq
  rw [indexSum, BitVec.toNat_add, hwiden, BitVec.toNat_ofNat, Nat.mod_mod]

/-- Settles O33: one write of `I`, of the sum mod 4096. -/
theorem addToIndexWraps : Obligations.AddToIndexWraps := fun x =>
  ⟨decode_of_ownRow _ rfl (Laws.OwnRow.addI x) nofun, fun _ =>
    becomes_of_writeI rfl (indexSum_eq_ofNat _ _)⟩

/-- Settles O32: one write of `I`, of the literal. -/
theorem loadIndexLiteral : Obligations.LoadIndexLiteral := fun nnn =>
  ⟨decode_of_ownRow _ rfl (Laws.OwnRow.ldI nnn) nofun, fun _ => becomes_of_writeI rfl rfl⟩

end Sys2Proof

namespace Sys2Proof

open Machine

/-! ### Display (44_display.md) -/

/-- An advance after one write of the display changes the display and `pc` alone. -/
theorem becomes_of_writeDisplay {i : Instr} {s : State} {d : Display}
    (h : exec i s = advance (writeDisplay d s)) : Becomes i s { s with display := d } :=
  becomes_of_advance h (writeDisplay_pc d s)

/-- Settles O38: one write of the display, of the dark one (R151). -/
theorem clearScreen : Obligations.ClearScreen := by
  refine ⟨?decode, fun s => ⟨darkDisplay, pixel_dark, ?becomes⟩⟩
  case decode => exact decode_of_ownRow _ rfl Laws.OwnRow.cls nofun
  case becomes => exact becomes_of_writeDisplay rfl

end Sys2Proof

namespace Sys2Proof

/-! ### Which opcodes a row takes, by the shape of its mask (R63, R64) -/

/-- The low byte of an opcode is its two low nibbles. -/
theorem fieldKk_eq_iff {w : Opcode} {k : Byte} :
    fieldKk w = k ↔ nib 1 w = k.extractLsb' 4 4 ∧ nib 0 w = k.extractLsb' 0 4 := by
  refine ⟨?_, fun ⟨h1, h0⟩ => fieldKk_of_nibs h1 h0⟩
  rintro rfl
  constructor <;> (apply BitVec.eq_of_getLsbD_eq; intro i hi; simp [nib, fieldKk, hi])

/-- A row with the full mask takes its pattern alone. -/
theorem rowMatches_full_iff {w p : Opcode} {f : Opcode → Instr} :
    rowMatches w ⟨p, 0xFFFF, f⟩ = true ↔ nib 3 w = nib 3 p ∧ w = p := by
  rw [rowMatches, beq_iff_eq, and_iff_right_of_imp (congrArg (nib 3))]
  exact Eq.congr_left BitVec.and_allOnes

/-- A row that fixes the top nibble takes the opcodes with that top nibble. -/
theorem rowMatches_top_iff {w p : Opcode} {f : Opcode → Instr} (hp : p = formXkk (nib 3 p) 0 0) :
    rowMatches w ⟨p, 0xF000, f⟩ = true ↔ nib 3 w = nib 3 p := by
  have h2 : nib 2 p = 0 := by rw [hp]; exact fieldX_formXkk _ 0 0
  have h1 : nib 1 p = 0 := by rw [hp]; exact nib1_formXkk _ 0 0
  have h0 : nib 0 p = 0 := by rw [hp]; exact nib0_formXkk _ 0 0
  obtain ⟨m3, m2, m1, m0⟩ : nib 3 0xF000 = 15 ∧ nib 2 0xF000 = 0 ∧ nib 1 0xF000 = 0 ∧
      nib 0 0xF000 = 0 := by decide
  rw [rowMatches_iff, m3, m2, m1, m0, h2, h1, h0]
  simp [and_full]

/-- A row that fixes the top and the low nibble takes the opcodes with those. -/
theorem rowMatches_topLow_iff {w p : Opcode} {f : Opcode → Instr}
    (hp : p = formXyn (nib 3 p) 0 0 (nib 0 p)) :
    rowMatches w ⟨p, 0xF00F, f⟩ = true ↔ nib 3 w = nib 3 p ∧ nib 0 w = nib 0 p := by
  have h2 : nib 2 p = 0 := by rw [hp]; exact fieldX_formXyn _ 0 0 _
  have h1 : nib 1 p = 0 := by rw [hp]; exact fieldY_formXyn _ 0 0 _
  obtain ⟨m3, m2, m1, m0⟩ : nib 3 0xF00F = 15 ∧ nib 2 0xF00F = 0 ∧ nib 1 0xF00F = 0 ∧
      nib 0 0xF00F = 15 := by decide
  rw [rowMatches_iff, m3, m2, m1, m0, h2, h1]
  simp [and_full]

/-- A row that fixes the top nibble and the low byte takes the opcodes with those. -/
theorem rowMatches_topByte_iff {w p : Opcode} {f : Opcode → Instr}
    (hp : p = formXkk (nib 3 p) 0 (fieldKk p)) :
    rowMatches w ⟨p, 0xF0FF, f⟩ = true ↔ nib 3 w = nib 3 p ∧ fieldKk w = fieldKk p := by
  have h2 : nib 2 p = 0 := by rw [hp]; exact fieldX_formXkk _ 0 _
  have h1 : nib 1 p = (fieldKk p).extractLsb' 4 4 := (fieldKk_eq_iff.mp rfl).1
  have h0 : nib 0 p = (fieldKk p).extractLsb' 0 4 := (fieldKk_eq_iff.mp rfl).2
  obtain ⟨m3, m2, m1, m0⟩ : nib 3 0xF0FF = 15 ∧ nib 2 0xF0FF = 0 ∧ nib 1 0xF0FF = 15 ∧
      nib 0 0xF0FF = 15 := by decide
  rw [rowMatches_iff, m3, m2, m1, m0, h2, h1, h0, fieldKk_eq_iff]
  simp [and_full]

/-! ### Decoding the opcode of an instruction (R61 to R64) -/

/-- Every instruction has a row that takes its opcode and gives it back. -/
theorem ownRow (i : Instr) : Laws.OwnRow.Statement i := by
  cases i with
  | cls => exact Laws.OwnRow.cls
  | ret => exact Laws.OwnRow.ret
  | sys nnn => exact Laws.OwnRow.sys nnn
  | jp nnn => exact Laws.OwnRow.jp nnn
  | call nnn => exact Laws.OwnRow.call nnn
  | seLit x kk => exact Laws.OwnRow.seLit x kk
  | sneLit x kk => exact Laws.OwnRow.sneLit x kk
  | seReg x y => exact Laws.OwnRow.seReg x y
  | ldLit x kk => exact Laws.OwnRow.ldLit x kk
  | addLit x kk => exact Laws.OwnRow.addLit x kk
  | ldReg x y => exact Laws.OwnRow.ldReg x y
  | orReg x y => exact Laws.OwnRow.orReg x y
  | andReg x y => exact Laws.OwnRow.andReg x y
  | xorReg x y => exact Laws.OwnRow.xorReg x y
  | addReg x y => exact Laws.OwnRow.addReg x y
  | sub x y => exact Laws.OwnRow.sub x y
  | shr x y => exact Laws.OwnRow.shr x y
  | subn x y => exact Laws.OwnRow.subn x y
  | shl x y => exact Laws.OwnRow.shl x y
  | sneReg x y => exact Laws.OwnRow.sneReg x y
  | ldI nnn => exact Laws.OwnRow.ldI nnn
  | jpV0 nnn => exact Laws.OwnRow.jpV0 nnn
  | rnd x kk => exact Laws.OwnRow.rnd x kk
  | drw x y n => exact Laws.OwnRow.drw x y n
  | skp x => exact Laws.OwnRow.skp x
  | sknp x => exact Laws.OwnRow.sknp x
  | ldFromDt x => exact Laws.OwnRow.ldFromDt x
  | ldKey x => exact Laws.OwnRow.ldKey x
  | ldDt x => exact Laws.OwnRow.ldDt x
  | ldSt x => exact Laws.OwnRow.ldSt x
  | addI x => exact Laws.OwnRow.addI x
  | ldF x => exact Laws.OwnRow.ldF x
  | ldB x => exact Laws.OwnRow.ldB x
  | store x => exact Laws.OwnRow.store x
  | load x => exact Laws.OwnRow.load x

/-- `SYS nnn` is decoded from its opcode where the rows of `CLS` and `RET`, the only two before its
own, do not take it (R63, R102). -/
theorem decode_encode_sys {nnn : Addr} (hcls : nnn ≠ 0x0E0) (hret : nnn ≠ 0x0EE) :
    decode (encode (.sys nnn)) = .ok (.sys nnn) := by
  have hfull : ∀ p : Opcode, nnn ≠ fieldNnn p → ∀ f,
      rowMatches (encode (.sys nnn)) ⟨p, 0xFFFF, f⟩ = false := by
    intro p hp f
    refine Bool.eq_false_iff.mpr fun h => hp ?_
    rw [← (rowMatches_full_iff.mp h).2]
    exact (fieldNnn_formNnn _ nnn).symm
  obtain ⟨r, hr, hmatch, hmake⟩ := ownRow (.sys nnn)
  refine (decode_ok_iff _ _).mpr ⟨2, r, hr, hmatch, hmake, fun k q hk hq => ?_⟩
  match k, hk with
  | 0, _ =>
    cases hq
    exact hfull 0x00E0 hcls _
  | 1, _ =>
    cases hq
    exact hfull 0x00EE hret _

/-- The one check of well-formedness, as a proposition. -/
theorem wellFormed_sys_iff {nnn : Addr} :
    WellFormed (.sys nnn) = true ↔ nnn ≠ 0x0E0 ∧ nnn ≠ 0x0EE := by
  rw [WellFormed, Bool.and_eq_true, bne_iff_ne, bne_iff_ne]

/-- Settles O2: `SYS`, where the two rows before it leave it its opcode, and every other instruction
are decoded by their own row. -/
theorem decodeOfEncode : Obligations.DecodeOfEncode := by
  intro i hwf
  cases i with
  | sys nnn =>
    obtain ⟨hcls, hret⟩ := wellFormed_sys_iff.mp hwf
    exact decode_encode_sys hcls hret
  | _ => exact decode_encode_of_ownRow (ownRow _) nofun

/-! ### Encoding what an opcode decodes to (R61 to R64) -/

/-- An opcode the row takes is the opcode of the instruction the row makes of it. -/
def LosesNoBit (r : Row) : Prop := ∀ w, rowMatches w r = true → encode (r.make w) = w

theorem losesNoBit_full {p : Opcode} {f : Opcode → Instr} (hf : encode (f p) = p) :
    LosesNoBit ⟨p, 0xFFFF, f⟩ := fun _ h => by
  obtain ⟨-, rfl⟩ := rowMatches_full_iff.mp h
  exact hf

theorem losesNoBit_nnn {p : Opcode} {f : Opcode → Instr}
    (hf : ∀ w, encode (f w) = formNnn (nib 3 p) (fieldNnn w))
    (hp : p = formXkk (nib 3 p) 0 0) : LosesNoBit ⟨p, 0xF000, f⟩ := fun w h =>
  (hf w).trans (formNnn_of_fields ((rowMatches_top_iff hp).mp h))

theorem losesNoBit_xkk {p : Opcode} {f : Opcode → Instr}
    (hf : ∀ w, encode (f w) = formXkk (nib 3 p) (fieldX w) (fieldKk w))
    (hp : p = formXkk (nib 3 p) 0 0) : LosesNoBit ⟨p, 0xF000, f⟩ := fun w h =>
  (hf w).trans (formXkk_of_fields ((rowMatches_top_iff hp).mp h) rfl)

theorem losesNoBit_xyn {p : Opcode} {f : Opcode → Instr}
    (hf : ∀ w, encode (f w) = formXyn (nib 3 p) (fieldX w) (fieldY w) (fieldN w))
    (hp : p = formXkk (nib 3 p) 0 0) : LosesNoBit ⟨p, 0xF000, f⟩ := fun w h =>
  (hf w).trans (formXyn_of_fields ((rowMatches_top_iff hp).mp h) rfl)

theorem losesNoBit_xy {p : Opcode} {f : Opcode → Instr}
    (hf : ∀ w, encode (f w) = formXy (nib 3 p) (fieldX w) (fieldY w) (nib 0 p))
    (hp : p = formXyn (nib 3 p) 0 0 (nib 0 p)) : LosesNoBit ⟨p, 0xF00F, f⟩ := fun w h => by
  obtain ⟨ht, hl⟩ := (rowMatches_topLow_iff hp).mp h
  exact (hf w).trans (formXyn_of_fields ht hl)

theorem losesNoBit_x {p : Opcode} {f : Opcode → Instr}
    (hf : ∀ w, encode (f w) = formX (nib 3 p) (fieldX w) (fieldKk p))
    (hp : p = formXkk (nib 3 p) 0 (fieldKk p)) : LosesNoBit ⟨p, 0xF0FF, f⟩ := fun w h => by
  obtain ⟨ht, hk⟩ := (rowMatches_topByte_iff hp).mp h
  exact (hf w).trans (formXkk_of_fields ht hk)

theorem rows1_losesNoBit : rows1.Forall LosesNoBit :=
  ⟨losesNoBit_full rfl, losesNoBit_full rfl,
   losesNoBit_nnn (fun _ => rfl) rfl, losesNoBit_nnn (fun _ => rfl) rfl,
   losesNoBit_nnn (fun _ => rfl) rfl, losesNoBit_xkk (fun _ => rfl) rfl,
   losesNoBit_xkk (fun _ => rfl) rfl, losesNoBit_xy (fun _ => rfl) rfl,
   losesNoBit_xkk (fun _ => rfl) rfl, losesNoBit_xkk (fun _ => rfl) rfl⟩

theorem rows2_losesNoBit : rows2.Forall LosesNoBit :=
  ⟨losesNoBit_xy (fun _ => rfl) rfl, losesNoBit_xy (fun _ => rfl) rfl,
   losesNoBit_xy (fun _ => rfl) rfl, losesNoBit_xy (fun _ => rfl) rfl,
   losesNoBit_xy (fun _ => rfl) rfl, losesNoBit_xy (fun _ => rfl) rfl,
   losesNoBit_xy (fun _ => rfl) rfl, losesNoBit_xy (fun _ => rfl) rfl,
   losesNoBit_xy (fun _ => rfl) rfl, losesNoBit_xy (fun _ => rfl) rfl⟩

theorem rows3_losesNoBit : rows3.Forall LosesNoBit :=
  ⟨losesNoBit_nnn (fun _ => rfl) rfl, losesNoBit_nnn (fun _ => rfl) rfl,
   losesNoBit_xkk (fun _ => rfl) rfl, losesNoBit_xyn (fun _ => rfl) rfl,
   losesNoBit_x (fun _ => rfl) rfl, losesNoBit_x (fun _ => rfl) rfl,
   losesNoBit_x (fun _ => rfl) rfl, losesNoBit_x (fun _ => rfl) rfl,
   losesNoBit_x (fun _ => rfl) rfl, losesNoBit_x (fun _ => rfl) rfl,
   losesNoBit_x (fun _ => rfl) rfl, losesNoBit_x (fun _ => rfl) rfl,
   losesNoBit_x (fun _ => rfl) rfl, losesNoBit_x (fun _ => rfl) rfl,
   losesNoBit_x (fun _ => rfl) rfl⟩

/-- No row of the table drops a bit of the opcodes it takes. -/
theorem losesNoBit_of_mem {r : Row} (hr : r ∈ opcodeTable) : LosesNoBit r := by
  rcases List.mem_append.mp hr with hr | hr
  · rcases List.mem_append.mp hr with hr | hr
    · exact List.forall_iff_forall_mem.mp rows1_losesNoBit r hr
    · exact List.forall_iff_forall_mem.mp rows2_losesNoBit r hr
  · exact List.forall_iff_forall_mem.mp rows3_losesNoBit r hr

/-- What an opcode decodes to is well-formed: 0x00E0 and 0x00EE are taken before the row of `SYS`. -/
theorem wellFormed_of_decode {w : Opcode} {i : Instr} (hw : encode i = w)
    (h : decode w = .ok i) : WellFormed i = true := by
  subst hw
  cases i with
  | sys nnn =>
    rw [wellFormed_sys_iff]
    constructor <;> (rintro rfl; exact absurd h (by decide))
  | _ => rfl

/-- Settles O3: the row that decodes the opcode drops none of its bits. -/
theorem encodeOfDecode : Obligations.EncodeOfDecode := by
  intro w i h
  obtain ⟨j, r, hr, hmatch, rfl, _⟩ := (decode_ok_iff w i).mp h
  have hw : encode (r.make w) = w := losesNoBit_of_mem (List.mem_of_getElem? hr) w hmatch
  exact ⟨hw, wellFormed_of_decode hw h⟩

/-! ### The unknown opcodes and the overlaps of the table (R63, R66) -/

/-- The low byte of an opcode given by its nibbles. -/
@[simp] theorem fieldKk_formXyn (a x b c : BitVec 4) : fieldKk (formXyn a x b c) = b ++ c := by
  apply BitVec.eq_of_getLsbD_eq
  intro i hi
  rw [BitVec.getLsbD_append]
  simp [fieldKk, getLsbD_formXyn, hi]

/-- The top nibbles that a row fixes alone, and the five others (R64). -/
theorem top_nibble_cases (a : BitVec 4) :
    a = 0x5 ∨ a = 0x8 ∨ a = 0x9 ∨ a = 0xE ∨ a = 0xF ∨
      a ∈ [0x0#4, 0x1#4, 0x2#4, 0x3#4, 0x4#4, 0x6#4, 0x7#4, 0xA#4, 0xB#4, 0xC#4, 0xD#4] := by
  revert a
  decide

/-- The low nibbles of the rows with top nibble 8, and the others (R64, R66). -/
theorem low_nibble_cases (c : BitVec 4) :
    (¬c = 0x0 ∧ ¬c = 0x1 ∧ ¬c = 0x2 ∧ ¬c = 0x3 ∧ ¬c = 0x4 ∧ ¬c = 0x5 ∧ ¬c = 0x6 ∧ ¬c = 0x7 ∧
      ¬c = 0xE) ↔ c ∈ [0x8#4, 0x9#4, 0xA#4, 0xB#4, 0xC#4, 0xD#4, 0xF#4] := by
  revert c
  decide

/-- Settles O4: the rows that could take the opcode are those of its top nibble. -/
theorem unknownOpcodesExactly : Obligations.UnknownOpcodesExactly := by
  intro a x b c
  refine ⟨?_, decode_not_truncated _⟩
  change decode (formXyn a x b c) = _ ↔ _
  rw [decode_error_iff, opcodeTable, List.forall_mem_append, List.forall_mem_append, rows1, rows2,
    rows3]
  simp (disch := decide) only [List.forall_mem_cons, ← Bool.not_eq_true, rowMatches_full_iff,
    rowMatches_top_iff, rowMatches_topLow_iff, rowMatches_topByte_iff, nib3_formXyn, nib0_formXyn,
    fieldKk_formXyn]
  simp only [nib, fieldKk, Nat.reduceMul, BitVec.reduceExtractLsb']
  rcases top_nibble_cases a with rfl | rfl | rfl | rfl | rfl | ha
  · simp
  · simpa using low_nibble_cases c
  · simp
  · simp
  · simp
  · fin_cases ha <;> simp

/-- Settles O5: by `earlier_pattern_disagrees` the later of the two is the row of `SYS`, so the earlier
is one of the two before it, which take their pattern alone. -/
theorem tableRowsOverlapOnlyAtSys : Obligations.TableRowsOverlapOnlyAtSys := by
  intro j k r q w hjk hr hq hmr hmq
  have hk : k = 2 := by
    obtain ⟨hj', rfl⟩ := List.getElem?_eq_some_iff.mp hr
    obtain ⟨hk', rfl⟩ := List.getElem?_eq_some_iff.mp hq
    by_contra hne
    exact earlier_pattern_disagrees ⟨k, hk'⟩ hne ⟨j, hj'⟩ hjk (pattern_agree hmr hmq)
  subst hk
  match j, hjk with
  | 0, _ =>
    cases hr
    exact .inl ⟨rfl, rfl, (rowMatches_full_iff.mp hmr).2⟩
  | 1, _ =>
    cases hr
    exact .inr ⟨rfl, rfl, (rowMatches_full_iff.mp hmr).2⟩

end Sys2Proof

namespace Sys2Proof

open Machine

/-! ### What an instruction can do, said once (R85, R88)

Every instruction first makes its own check, then writes its components, then makes one checked write
of `pc`. The three functions below name these parts, and `exec_eq` ties them to `exec`. -/

/-- The fault of the instruction's own check, made before anything is written: the stack of `RET` and
`CALL`, the digit of `LD F`, the data range of the memory instructions and of `DRW`. -/
def ownFault : Instr → State → Option Fault
  | .ret, s => if s.stack = [] then some .stackUnderflow else none
  | .call _, s => if s.stack.length < s.config.stackDepth then none else some .stackOverflow
  | .ldF x, s => if (readV s x).toNat > 15 then some .registerOutOfBounds else none
  | .ldB _, s => if rangeInRam s.idx.toNat 3 then none else some .memoryOutOfBounds
  | .store x, s | .load x, s =>
    if rangeInRam s.idx.toNat (blockCount s x) then none else some .memoryOutOfBounds
  | .drw _ _ n, s => if rangeInRam s.idx.toNat n.toNat then none else some .memoryOutOfBounds
  | _, _ => none

/-- What a draw leaves on the display, with the collision bit (R152). -/
def drawn (s : State) (x y : Reg) (n : Nibble) : Canvas :=
  blitRows (spriteBytes s s.idx.toNat n.toNat) (readV s y).toNat (readV s x).toNat (s.display, false)

/-- The state with the instruction's writes but that of `pc`. -/
def effect : Instr → State → State
  | .cls, s => writeDisplay darkDisplay s
  | .ret, s => writeStack s.stack.dropLast s
  | .call _, s => writeStack (s.stack ++ [s.pc]) s
  | .sys _, s | .jp _, s | .jpV0 _, s | .seLit _ _, s | .sneLit _ _, s | .seReg _ _, s
  | .sneReg _ _, s | .skp _, s | .sknp _, s => s
  | .ldLit x kk, s => writeV x kk s
  | .addLit x kk, s => writeV x (readV s x + kk) s
  | .ldReg x y, s => writeV x (readV s y) s
  | .orReg x y, s => writeV x (readV s x ||| readV s y) s
  | .andReg x y, s => writeV x (readV s x &&& readV s y) s
  | .xorReg x y, s => writeV x (readV s x ^^^ readV s y) s
  | .addReg x y, s =>
    writeV x (readV s x + readV s y) (writeVF (carryFlag (readV s x) (readV s y)) s)
  | .sub x y, s =>
    writeV x (readV s x - readV s y) (writeVF (greaterFlag (readV s x) (readV s y)) s)
  | .shr x y, s => writeV x (shiftSource s x y >>> 1) (writeVF (lowFlag (readV s x)) s)
  | .subn x y, s =>
    writeVF (greaterFlag (readV s y) (readV s x)) (writeV x (readV s y - readV s x) s)
  | .shl x y, s => writeV x (shiftSource s x y <<< 1) (writeVF (highFlag (readV s x)) s)
  | .rnd x kk, s => writeV x (rndIn s &&& kk) s
  | .ldI nnn, s => writeI nnn s
  | .addI x, s => writeI (indexSum s.idx (readV s x)) s
  | .ldF x, s => writeI (glyphAddr (readV s x)) s
  | .ldB x, s => storeBytes s.idx.toNat (decimalDigits (readV s x)) s
  | .store x, s => storeBytes s.idx.toNat (firstRegs s (blockCount s x)) s
  | .load x, s => loadRegs 0 (blockBytes s (blockCount s x)) s
  | .ldFromDt x, s => writeV x s.dt s
  | .ldKey x, s => writeWait (.waitingForKey x) s
  | .ldDt x, s => writeDt (readV s x) s
  | .ldSt x, s => writeSt (readV s x) s
  | .drw x y n, s =>
    writeVF (collisionFlag (drawn s x y n).2) (writeDisplay (drawn s x y n).1 s)

/-- Where a skip goes on (R86). -/
def skipTarget (taken : Bool) (s : State) : Nat := s.pc.toNat + if taken then 4 else 2

/-- The number the instruction writes to `pc`; `LD Vx, K` leaves `pc` where it is. -/
def target : Instr → State → Nat
  | .ret, s => (s.stack.getLastD 0).toNat + 2
  | .jp nnn, _ | .call nnn, _ => nnn.toNat
  | .jpV0 nnn, s => indexedTarget s nnn
  | .seLit x kk, s => skipTarget (readV s x == kk) s
  | .sneLit x kk, s => skipTarget (readV s x != kk) s
  | .seReg x y, s => skipTarget (readV s x == readV s y) s
  | .sneReg x y, s => skipTarget (readV s x != readV s y) s
  | .skp x, s => skipTarget (keyMatches (keyIn s) (readV s x)) s
  | .sknp x, s => skipTarget (!keyMatches (keyIn s) (readV s x)) s
  | .ldKey _, s => s.pc.toNat
  | _, s => s.pc.toNat + 2

theorem skipIf_eq_jumpTo (taken : Bool) (s : State) :
    skipIf taken s = jumpTo (skipTarget taken s) s := by
  rw [skipIf_eq]
  cases taken <;> rfl

/-- An instruction is its own check, then its writes, then the checked write of `pc`. -/
theorem exec_eq (i : Instr) (s : State) :
    exec i s = (ownFault i s).elim (jumpTo (target i s) (effect i s)) .fault := by
  cases i with
  | ret =>
    rcases stack_cases s with hs | ⟨l, a, hs⟩
    · rw [exec, execRet, pop_empty _ hs, ownFault, if_pos hs]
      rfl
    · rw [exec_ret_concat hs, ownFault, if_neg (by simp [hs]), target, effect, hs]
      simp
  | call nnn =>
    rw [exec, execCall, push, ownFault]
    split <;> rfl
  | seLit x kk => exact skipIf_eq_jumpTo _ s
  | sneLit x kk => exact skipIf_eq_jumpTo _ s
  | seReg x y => exact skipIf_eq_jumpTo _ s
  | sneReg x y => exact skipIf_eq_jumpTo _ s
  | skp x => exact skipIf_eq_jumpTo _ s
  | sknp x => exact skipIf_eq_jumpTo _ s
  | ldF x =>
    rw [exec, execLdF, ownFault]
    split <;> rfl
  | ldB x =>
    rw [exec, execLdB, ownFault]
    split <;> rfl
  | store x =>
    rw [exec, execStore, ownFault]
    split <;> rfl
  | load x =>
    rw [exec, execLoad, ownFault, advance, loadRegs_pc]
    split <;> rfl
  | drw x y n =>
    rw [exec, execDrw, ownFault]
    split <;> rfl
  | ldKey x =>
    refine (jumpTo_of_lt _ s.pc.isLt).trans ?_ |>.symm
    rw [BitVec.ofNat_toNat, BitVec.setWidth_eq]
    rfl
  | _ => rfl

/-- When an instruction completes, and what it leaves. -/
theorem exec_next {i : Instr} {s t : State} :
    exec i s = .next t ↔ ownFault i s = none ∧ target i s < 4096 ∧
      t = writePc (BitVec.ofNat 12 (target i s)) (effect i s) := by
  rw [exec_eq]
  cases ownFault i s with
  | none =>
    simp only [Option.elim_none, true_and]
    exact jumpTo_next
  | some g => simp

/-- When an instruction faults, and how. -/
theorem exec_fault {i : Instr} {s : State} {f : Fault} :
    exec i s = .fault f ↔ ownFault i s = some f ∨
      ownFault i s = none ∧ 4096 ≤ target i s ∧ f = .memoryOutOfBounds := by
  rw [exec_eq]
  cases ownFault i s with
  | none =>
    simp only [Option.elim_none, reduceCtorEq, false_or, true_and]
    exact jumpTo_fault
  | some g => simp

theorem exec_not_refused (i : Instr) (s : State) (r : Refusal) : exec i s ≠ .refused r := by
  rw [exec_eq]
  cases ownFault i s with
  | none => exact jumpTo_not_refused _ _ r
  | some g => simp

/-! ### What the writes of an instruction leave alone (R26) -/

theorem effect_ram {i : Instr} {s : State} (h : (effect i s).ram ≠ s.ram) :
    (∃ x, i = .ldB x) ∨ ∃ x, i = .store x := by
  cases i with
  | ldB x => exact .inl ⟨x, rfl⟩
  | store x => exact .inr ⟨x, rfl⟩
  | load x => exact absurd (loadRegs_ram _ _ _) h
  | _ => exact absurd rfl h

theorem effect_stack {i : Instr} {s : State} (h : (effect i s).stack ≠ s.stack) :
    i = .ret ∨ ∃ nnn, i = .call nnn := by
  cases i with
  | ret => exact .inl rfl
  | call nnn => exact .inr ⟨nnn, rfl⟩
  | load x => exact absurd (loadRegs_stack _ _ _) h
  | _ => exact absurd rfl h

theorem effect_idx {i : Instr} {s : State} (h : (effect i s).idx ≠ s.idx) :
    (∃ nnn, i = .ldI nnn) ∨ (∃ x, i = .addI x) ∨ ∃ x, i = .ldF x := by
  cases i with
  | ldI nnn => exact .inl ⟨nnn, rfl⟩
  | addI x => exact .inr (.inl ⟨x, rfl⟩)
  | ldF x => exact .inr (.inr ⟨x, rfl⟩)
  | load x => exact absurd (loadRegs_idx _ _ _) h
  | _ => exact absurd rfl h

theorem effect_dt {i : Instr} {s : State} (h : (effect i s).dt ≠ s.dt) : ∃ x, i = .ldDt x := by
  cases i with
  | ldDt x => exact ⟨x, rfl⟩
  | load x => exact absurd (loadRegs_dt _ _ _) h
  | _ => exact absurd rfl h

theorem effect_st {i : Instr} {s : State} (h : (effect i s).st ≠ s.st) : ∃ x, i = .ldSt x := by
  cases i with
  | ldSt x => exact ⟨x, rfl⟩
  | load x => exact absurd (loadRegs_st _ _ _) h
  | _ => exact absurd rfl h

theorem effect_display {i : Instr} {s : State} (h : (effect i s).display ≠ s.display) :
    i = .cls ∨ ∃ x y n, i = .drw x y n := by
  cases i with
  | cls => exact .inl rfl
  | drw x y n => exact .inr ⟨x, y, n, rfl⟩
  | load x => exact absurd (loadRegs_display _ _ _) h
  | _ => exact absurd rfl h

theorem effect_wait {i : Instr} {s : State} (h : (effect i s).wait ≠ s.wait) :
    ∃ x, i = .ldKey x := by
  cases i with
  | ldKey x => exact ⟨x, rfl⟩
  | load x => exact absurd (loadRegs_wait _ _ _) h
  | _ => exact absurd rfl h

/-- Settles O45: the write of `pc` changes no other component, and the instruction's own writes are
those of the table. -/
theorem onlyTheseInstructionsWrite : Obligations.OnlyTheseInstructionsWrite := by
  intro i s t h
  obtain ⟨-, -, rfl⟩ := exec_next.mp h
  exact ⟨effect_ram, effect_idx, effect_stack, effect_dt, effect_st, effect_display, effect_wait,
    exec_keeps h⟩

/-- Settles O46: an instruction that stores, stores one range of bytes. -/
theorem bytesOutsideStoresAreKept : Obligations.BytesOutsideStoresAreKept := by
  intro i s t a h
  obtain ⟨-, -, rfl⟩ := exec_next.mp h
  refine ⟨fun hB hS => ?other, ?digits, ?block⟩
  case other =>
    rw [writePc_ram]
    by_contra hne
    rcases effect_ram fun hram => hne (congrArg (Memory.read · a) hram) with ⟨x, hx⟩ | ⟨x, hx⟩
    · exact hB x hx
    · exact hS x hx
  case digits =>
    rintro x rfl ha
    exact read_writeList_outside s.ram _ a _ ha
  case block =>
    rintro x rfl ha
    exact read_writeList_outside s.ram _ a _ (by rwa [firstRegs_length])

/-! ### The flag register (R13) -/

/-- A register write changes the register it names alone. -/
theorem eq_of_readV_writeV_ne {x r : Reg} {u : Byte} {s : State}
    (h : readV (writeV x u s) r ≠ readV s r) : x = r := by
  by_contra hne
  exact h ((readV_writeV x r u s).trans (if_neg (Ne.symm hne)))

/-- A block load that changes `VF` is the load of all sixteen registers. -/
theorem eq_of_readV_loadRegs_ne {x : Reg} {s : State}
    (h : readV (loadRegs 0 (blockBytes s (blockCount s x)) s) 0xF ≠ readV s 0xF) : x = 0xF := by
  have hle := blockCount_le s x
  have hcount : ¬blockCount s x ≤ 15 := by
    intro hlt
    refine h ((readV_loadRegs 0 _ s 0xF (by simpa using hle)).trans (if_neg ?_))
    simpa using hlt
  have hx : blockCount s x ≤ x.toNat + 1 := by
    unfold blockCount
    split <;> omega
  apply BitVec.eq_of_toNat_eq
  have := x.isLt
  show x.toNat = 15
  omega

/-- Settles O47: an instruction that writes one register names it, and a block load reaches `VF` only
where it loads all registers. -/
theorem onlyTheseInstructionsWriteTheFlag : Obligations.OnlyTheseInstructionsWriteTheFlag := by
  intro i s t h hne
  obtain ⟨-, -, rfl⟩ := exec_next.mp h
  rw [readV_writePc] at hne
  cases i with
  | ldLit _ _ | addLit _ _ | ldReg _ _ | orReg _ _ | andReg _ _ | xorReg _ _ | rnd _ _
  | ldFromDt _ =>
    simp [eq_of_readV_writeV_ne hne]
  | load _ => simp [eq_of_readV_loadRegs_ne hne]
  | addReg _ _ | sub _ _ | shr _ _ | subn _ _ | shl _ _ | drw _ _ _ => simp
  | _ => exact absurd rfl hne

/-! ### Which faults there are (R172) -/

/-- The instruction's own check raises a fault of its row. -/
theorem ownFault_mem {i : Instr} {s : State} {f : Fault} (h : ownFault i s = some f) :
    f ∈ mayRaise i := by
  cases i with
  | ret | call _ | ldF _ | ldB _ | store _ | load _ | drw _ _ _ =>
    simp only [ownFault, Option.ite_none_left_eq_some, Option.ite_none_right_eq_some,
      Option.some.injEq] at h
    simp [mayRaise, h]
  | _ => cases h

/-- The instruction's write of `pc` can fault only where its row has `MemoryOutOfBounds`: a 12-bit
target is inside RAM. -/
theorem memoryOutOfBounds_mem {i : Instr} {s : State} (h : 4096 ≤ target i s) :
    .memoryOutOfBounds ∈ mayRaise i := by
  cases i with
  | jp nnn => exact absurd nnn.isLt (Nat.not_lt.mpr h)
  | call nnn => exact absurd nnn.isLt (Nat.not_lt.mpr h)
  | ldKey x => exact absurd s.pc.isLt (Nat.not_lt.mpr h)
  | _ => simp [mayRaise]

/-- An instruction raises no fault but those of its row. -/
theorem mem_mayRaise_of_exec {i : Instr} {s : State} {f : Fault} (h : exec i s = .fault f) :
    f ∈ mayRaise i := by
  rcases exec_fault.mp h with h | ⟨-, hge, rfl⟩
  · exact ownFault_mem h
  · exact memoryOutOfBounds_mem hge

end Sys2Proof

namespace Sys2Proof

open Machine

/-! ### The invariant is kept (R24) -/

/-- The invariant speaks of the RAM, the stack, the phase and the parameters alone. -/
theorem invariant_congr {s t : State} (h : Invariant s) (hram : t.ram = s.ram)
    (hstack : t.stack = s.stack) (hphase : t.tickPhase = s.tickPhase) (hconfig : t.config = s.config) :
    Invariant t :=
  ⟨hram ▸ h.ram, hstack ▸ hconfig ▸ h.stack, hphase ▸ hconfig ▸ h.phase, hconfig ▸ h.config⟩

/-- A store that its range check let through keeps the canonical form of the RAM. -/
theorem writeList_wf_of_rangeInRam {m : Memory} {base : Nat} {bytes : List Byte} (h : Memory.wf m)
    (hr : rangeInRam base bytes.length = true) : Memory.wf (m.writeList base bytes) := by
  rcases (rangeInRam_iff _ _).mp hr with hnil | hle
  · rw [List.length_eq_zero_iff.mp hnil]
    exact h
  · exact writeList_wf bytes hle h

/-- The writes of an instruction whose own check passes keep the canonical form of the RAM. -/
theorem effect_ram_wf {i : Instr} {s : State} (h : Memory.wf s.ram) (hc : ownFault i s = none) :
    Memory.wf (effect i s).ram := by
  by_cases hram : (effect i s).ram = s.ram
  · rwa [hram]
  · rcases effect_ram hram with ⟨x, rfl⟩ | ⟨x, rfl⟩
    · refine writeList_wf_of_rangeInRam h ?_
      simpa [ownFault] using hc
    · refine writeList_wf_of_rangeInRam h ?_
      simpa [ownFault] using hc

/-- The writes of an instruction whose own check passes keep the stack within its depth. -/
theorem effect_stack_le {i : Instr} {s : State} (h : s.stack.length ≤ s.config.stackDepth)
    (hc : ownFault i s = none) : (effect i s).stack.length ≤ s.config.stackDepth := by
  by_cases hstack : (effect i s).stack = s.stack
  · rwa [hstack]
  · rcases effect_stack hstack with rfl | ⟨nnn, rfl⟩
    · exact s.stack.dropLast_sublist.length_le.trans h
    · have hroom : s.stack.length < s.config.stackDepth := by simpa [ownFault] using hc
      simpa [effect] using hroom

/-- Every instruction that completes keeps the invariant. -/
theorem exec_invariant {i : Instr} {s t : State} (h : Invariant s) (he : exec i s = .next t) :
    Invariant t := by
  obtain ⟨hphase, -, hconfig, -, -⟩ := exec_keeps he
  obtain ⟨hc, -, rfl⟩ := exec_next.mp he
  refine ⟨effect_ram_wf h.ram hc, ?_, ?_, ?_⟩
  · rw [hconfig]
    exact effect_stack_le h.stack hc
  · rw [hphase, hconfig]
    exact h.phase
  · rw [hconfig]
    exact h.config

/-- Every turn that completes keeps the invariant. -/
theorem turn_invariant {s t : State} (h : Invariant s) (ht : turn s = .next t) : Invariant t := by
  rcases turn_cases s with ⟨x, _, e⟩ | ⟨_, _, e⟩ | ⟨_, _, w, _, ⟨_, _, e⟩ | ⟨i, _, e⟩⟩
  · rw [e] at ht
    rcases waitTurn_cases x s with ⟨_, e⟩ | ⟨k, _, e⟩
    · cases e.symm.trans ht
      exact h
    · obtain ⟨_, rfl⟩ := advance_next.mp (e.symm.trans ht)
      exact invariant_congr h rfl rfl rfl rfl
  · cases e.symm.trans ht
  · cases e.symm.trans ht
  · exact exec_invariant h (e.symm.trans ht)

/-- The end of a step keeps the invariant: the phase stays below a divider that is at least 1. -/
theorem commit_invariant {s : State} (h : Invariant s) : Invariant (commit s) :=
  ⟨h.ram, h.stack, Nat.mod_lt _ h.config.2, h.config⟩

/-- Settles O52: a completed step is a completed turn, committed, and both keep the invariant. -/
theorem stepKeepsInvariant : Obligations.StepKeepsInvariant := by
  intro s t h hst
  obtain ⟨u, hu, rfl⟩ := step_next.mp hst
  exact commit_invariant (turn_invariant h hu)

/-- The state after reset meets the invariant. -/
theorem reset_invariant : Invariant State.reset :=
  ⟨reset_ram_wf, Nat.zero_le _, Nat.succ_pos 7, Nat.succ_pos 15, Nat.succ_pos 7⟩

/-- A machine that is reset meets the invariant, if its parameters are ones R6 allows. -/
theorem resetMachine_invariant {s : State} (h : paramsOk s.config) : Invariant (resetMachine s) :=
  ⟨reset_ram_wf, Nat.zero_le _, h.2, h⟩

/-- Settles O53: the reset RAM lists no cell, the stack is empty and the phase is 0. -/
theorem resetMeetsInvariant : Obligations.ResetMeetsInvariant :=
  ⟨reset_invariant, fun _ h => resetMachine_invariant h⟩

/-- A load that fits keeps the invariant. -/
theorem loadImage_invariant {bytes : List Byte} {base : Nat} {s t : State} (h : Invariant s)
    (ht : loadImage bytes base s = .next t) : Invariant t := by
  rcases loadImage_cases bytes base s with ⟨_, e⟩ | ⟨hfit, e⟩
  · cases e.symm.trans ht
  · cases e.symm.trans ht
    have hr := resetMachine_invariant h.config
    have hram : Memory.wf (s.ram.writeList base bytes) :=
      writeList_wf bytes ((Nat.add_comm base bytes.length).trans_le hfit) h.ram
    exact ⟨hram, hr.stack, hr.phase, hr.config⟩

/-- Every request that is served keeps the invariant. -/
theorem serve_invariant {q : Request} {s t : State} (h : Invariant s) (ht : serve q s = .next t) :
    Invariant t := by
  cases q with
  | reset =>
    cases ht
    exact resetMachine_invariant h.config
  | load bytes base =>
    rw [serve_load] at ht
    exact loadImage_invariant h ht
  | step inp =>
    have hin : Invariant { s with hostIn := inp :: s.hostIn } := invariant_congr h rfl rfl rfl rfl
    exact stepKeepsInvariant _ t hin ht

/-- The state of record keeps the invariant, after a fault as well. -/
theorem stateOfRecord_invariant {q : Request} {s : State} (h : Invariant s) :
    Invariant (stateOfRecord s (serve q s)) := by
  cases ht : serve q s with
  | next t => exact serve_invariant h ht
  | fault f => exact h
  | refused r => exact h

/-- Settles O54, by induction on the list of requests. -/
theorem everyServedStateMeetsInvariant : Obligations.EveryServedStateMeetsInvariant := by
  refine ⟨reset_invariant, fun qs => ?_⟩
  induction qs with
  | nil => exact fun _ h => h
  | cons q qs ih => exact fun s h => ih _ (stateOfRecord_invariant h)

/-! ### What a step can answer (R80, R172) -/

theorem turn_not_refused (s : State) (r : Refusal) : turn s ≠ .refused r := by
  intro h
  rcases turn_cases s with ⟨x, _, e⟩ | ⟨_, _, e⟩ | ⟨_, _, w, _, ⟨_, _, e⟩ | ⟨i, _, e⟩⟩
  · rcases waitTurn_cases x s with ⟨_, e'⟩ | ⟨k, _, e'⟩
    · cases (e.trans e').symm.trans h
    · exact advance_not_refused _ r ((e.trans e').symm.trans h)
  · cases e.symm.trans h
  · cases e.symm.trans h
  · exact exec_not_refused i s r (e.symm.trans h)

/-- The faults of a wait turn (R82). -/
theorem turn_waiting_fault {s : State} {x : Reg} {f : Fault} (hw : s.wait = .waitingForKey x) :
    turn s = .fault f ↔ f = .memoryOutOfBounds ∧ keyIn s ≠ none ∧ 4096 ≤ s.pc.toNat + 2 := by
  rw [turn_waiting hw]
  rcases waitTurn_cases x s with ⟨hk, e⟩ | ⟨k, hk, e⟩
  · simp [e, hk]
  · rw [e, advance_fault, hk]
    simp [and_comm]

/-- `pc` is the last address exactly where the second byte of the opcode is outside RAM. -/
theorem pc_eq_last_iff (s : State) : s.pc = 0xFFF ↔ 4096 ≤ s.pc.toNat + 1 := by
  have := s.pc.isLt
  rw [← BitVec.toNat_inj]
  show s.pc.toNat = 4095 ↔ _
  omega

/-- The faults of a running turn: of the fetch, of the decoder, of the instruction (R83 to R85). -/
theorem turn_running_fault {s : State} {f : Fault} (hw : s.wait = .running) :
    turn s = .fault f ↔
      (s.pc = 0xFFF ∧ f = .memoryOutOfBounds) ∨
      (s.pc ≠ 0xFFF ∧ f = .unknownOpcode ∧ ∃ e, decode (joinBytes (s.ram.read s.pc.toNat)
        (s.ram.read (s.pc.toNat + 1))) = .error e) ∨
      (s.pc ≠ 0xFFF ∧ ∃ i, decode (joinBytes (s.ram.read s.pc.toNat)
        (s.ram.read (s.pc.toNat + 1))) = .ok i ∧ exec i s = .fault f) := by
  rw [turn_running hw, Ne, pc_eq_last_iff]
  rcases Nat.lt_or_ge (s.pc.toNat + 1) 4096 with hp | hp
  · rw [fetch_of_lt _ hp]
    cases hd : decode (joinBytes (s.ram.read s.pc.toNat) (s.ram.read (s.pc.toNat + 1))) with
    | error e => simp [runOpcode_error hd, Nat.not_le.mpr hp, eq_comm]
    | ok i => simp [runOpcode_ok hd, Nat.not_le.mpr hp]
  · simp [fetch_at_end _ hp, hp, eq_comm]

/-- No row of the table of R172 has the fault of a load (R193). -/
theorem mayRaise_subset_step (i : Instr) :
    mayRaise i ⊆ [.unknownOpcode, .stackUnderflow, .stackOverflow, .memoryOutOfBounds,
      .registerOutOfBounds] := by
  cases i <;> simp [mayRaise]

/-- Settles O11: the rows of the table of R172 hold no other fault. -/
theorem noStepIsRefused : Obligations.NoStepIsRefused := by
  refine ⟨exec_not_refused, fun s => ?_⟩
  cases hs : step s with
  | next t => exact .inl ⟨t, rfl⟩
  | refused r => exact absurd (step_refused.mp hs) (turn_not_refused s r)
  | fault f =>
    refine .inr ⟨f, rfl, ?_⟩
    have ht := step_fault.mp hs
    cases hw : s.wait with
    | waitingForKey x => simp [((turn_waiting_fault hw).mp ht).1]
    | running =>
      rcases (turn_running_fault hw).mp ht with ⟨_, rfl⟩ | ⟨_, rfl, _⟩ | ⟨_, i, _, he⟩
      · simp
      · simp
      · exact mayRaise_subset_step i (mem_mayRaise_of_exec he)

/-! ### Every fault of a row is raised somewhere (R172) -/

/-- The reset machine with `pc` at 0xFFE, from where neither the advance nor a skip stays in RAM. -/
def atLastOpcode : State := { State.reset with pc := 0xFFE }

theorem atLastOpcode_invariant : Invariant atLastOpcode :=
  invariant_congr reset_invariant rfl rfl rfl rfl

/-- The own check of every instruction but `RET` passes there: `I` and the registers are 0, and the
stack has room. -/
theorem ownFault_atLastOpcode {i : Instr} (hret : i ≠ .ret) : ownFault i atLastOpcode = none := by
  have hrange : ∀ count, count ≤ 16 → rangeInRam atLastOpcode.idx.toNat count = true := by
    intro count hle
    rw [rangeInRam_iff]
    right
    show 0 + count ≤ 4096
    omega
  cases i with
  | ret => exact absurd rfl hret
  | ldB x => rw [ownFault, if_pos (hrange 3 (by decide))]
  | store x => exact if_pos (hrange _ (blockCount_le _ x))
  | load x => exact if_pos (hrange _ (blockCount_le _ x))
  | drw x y n => exact if_pos (hrange _ n.isLt.le)
  | ldF x =>
    have hv : readV atLastOpcode x = 0 := by revert x; decide
    simp [ownFault, hv]
  | _ => rfl

/-- There the instructions that write `pc` relative to it leave RAM. -/
theorem target_atLastOpcode {i : Instr} (h : .memoryOutOfBounds ∈ mayRaise i) (hret : i ≠ .ret)
    (hjp : ∀ nnn, i ≠ .jpV0 nnn) : 4096 ≤ target i atLastOpcode := by
  have hskip : ∀ taken, 4096 ≤ skipTarget taken atLastOpcode := by decide
  cases i with
  | seLit _ _ | sneLit _ _ | seReg _ _ | sneReg _ _ | skp _ | sknp _ => exact hskip _
  | ret => exact absurd rfl hret
  | jpV0 nnn => exact absurd rfl (hjp nnn)
  | jp _ | call _ | ldKey _ => simp [mayRaise] at h
  | _ => exact Nat.le_refl 4096

/-- Every `MemoryOutOfBounds` of the table is raised: by `RET` to a `CALL` at 0xFFE, by `JP V0` with 0xFF
in `V0`, by the others at 0xFFE. -/
theorem exists_memoryOutOfBounds {i : Instr} (h : .memoryOutOfBounds ∈ mayRaise i)
    (hjp : ∀ nnn, i = .jpV0 nnn → 0xF01 ≤ nnn.toNat) :
    ∃ s, Invariant s ∧ exec i s = .fault .memoryOutOfBounds := by
  cases i with
  | ret =>
    exact ⟨{ State.reset with stack := [0xFFE] },
      ⟨reset_invariant.ram, by decide, reset_invariant.phase, reset_invariant.config⟩, rfl⟩
  | jpV0 nnn =>
    refine ⟨writeV 0x0 0xFF State.reset, invariant_congr reset_invariant rfl rfl rfl rfl, ?_⟩
    refine exec_fault.mpr (.inr ⟨rfl, ?_, rfl⟩)
    have hnnn := hjp nnn rfl
    rw [target, indexedTarget, readV_writeV_same]
    show 4096 ≤ 255 + nnn.toNat
    omega
  | _ =>
    exact ⟨atLastOpcode, atLastOpcode_invariant, exec_fault.mpr (.inr ⟨ownFault_atLastOpcode nofun,
      target_atLastOpcode h nofun fun _ => nofun, rfl⟩)⟩

/-- Every other fault of the table is raised: by `RET` after reset, by `CALL` with a full stack, by
`LD F` with 16 in its register. -/
theorem exists_other_fault {i : Instr} {f : Fault} (h : f ∈ mayRaise i)
    (hne : f ≠ .memoryOutOfBounds) : ∃ s, Invariant s ∧ exec i s = .fault f := by
  cases i with
  | ret =>
    obtain rfl : f = .stackUnderflow := by simpa [mayRaise, hne] using h
    exact ⟨State.reset, reset_invariant, rfl⟩
  | call nnn =>
    obtain rfl : f = .stackOverflow := by simpa [mayRaise] using h
    exact ⟨{ State.reset with stack := List.replicate 16 0 },
      ⟨reset_invariant.ram, by decide, reset_invariant.phase, reset_invariant.config⟩, rfl⟩
  | ldF x =>
    obtain rfl : f = .registerOutOfBounds := by simpa [mayRaise, hne] using h
    refine ⟨writeV x 16 State.reset, invariant_congr reset_invariant rfl rfl rfl rfl, ?_⟩
    exact exec_fault.mpr (.inl (if_pos (by rw [readV_writeV_same]; decide)))
  | _ => simp [mayRaise, hne] at h

/-- A sum of a byte and an address below 0xF01 stays inside RAM, so `JP V0` raises no fault there. -/
theorem exec_jpV0_not_fault {nnn : Addr} (s : State) (f : Fault) (h : nnn.toNat < 0xF01) :
    exec (.jpV0 nnn) s ≠ .fault f := by
  intro he
  obtain ⟨hge, -⟩ := jumpTo_fault.mp he
  have hv := (readV s 0x0).isLt
  simp only [Config.ramSize, indexedTarget] at hge
  omega

/-- Settles O48: the faults of the instructions, then those of the two kinds of turn. -/
theorem faultsAreThoseOfTheTable : Obligations.FaultsAreThoseOfTheTable := by
  refine ⟨fun _ _ _ => mem_mayRaise_of_exec, fun i f hf hjp => ?_,
    fun _ s f => exec_jpV0_not_fault s f,
    fun _ _ _ hw => step_fault.trans (turn_waiting_fault hw),
    fun _ _ hw => step_fault.trans (turn_running_fault hw)⟩
  by_cases hmem : f = .memoryOutOfBounds
  · subst hmem
    exact exists_memoryOutOfBounds hf hjp
  · exact exists_other_fault hf hmem

/-- Settles O7: a running turn is the fetch, then the decoder, then `exec`. -/
theorem stepRunsDecodedInstruction : Obligations.StepRunsDecodedInstruction := by
  intro s hw
  refine ⟨fun hp => ?_, fun hp w hword => ?_⟩
  · exact step_fault.mpr ((turn_running hw).trans (fetch_at_end _ (by omega)))
  · have hturn : turn s = runOpcode s w := by
      rw [turn_running hw, fetch_of_lt _ (by omega), hword, joinBytes]
    refine ⟨fun e he => ?_, fun i hi => ⟨fun u hu => ?_, fun f hf => ?_⟩⟩
    · exact step_fault.mpr (hturn.trans (runOpcode_error he))
    · exact step_next.mpr ⟨u, hturn.trans ((runOpcode_ok hi).trans hu), rfl⟩
    · exact step_fault.mpr (hturn.trans ((runOpcode_ok hi).trans hf))

end Sys2Proof

namespace Sys2Proof

open Machine

/-! ### The tick and the timers (R90) -/

/-- A timer counts down by one, and 0 stays 0 (R18). -/
theorem toNat_countDown (u : Byte) : (countDown u).toNat = u.toNat - 1 := by
  unfold countDown
  split
  · next hpos =>
    have hle : 1 ≤ u.toNat := BitVec.lt_def.mp hpos
    exact BitVec.toNat_sub_of_le (BitVec.le_def.mpr hle)
  · next hzero =>
    have hu : u.toNat = 0 := Nat.eq_zero_of_not_pos fun h => hzero (BitVec.lt_def.mpr h)
    rw [hu]

/-- Settles O8: the turn leaves the phase and the inputs as they were, and `commit` is the tick, the
latch and the spending of the input. -/
theorem everyCompletedStepTicks : Obligations.EveryCompletedStepTicks := by
  intro s t h
  obtain ⟨u, hu, rfl⟩ := step_next.mp h
  obtain ⟨hphase, -, hconfig, hin, hcount⟩ := turn_keeps hu
  have hc : (commit u).tickPhase = (u.tickPhase + 1) % u.config.timerDivider := rfl
  refine ⟨u, hu, hphase, ?phase, ?wrap, ?noWrap, ?hostIn, ?count, rfl⟩
  case phase => rw [hc, hphase, hconfig]
  case wrap =>
    intro h0
    have hdt : (commit u).dt = countDown u.dt := if_pos h0
    have hst : (commit u).st = countDown u.st := if_pos h0
    rw [hdt, hst]
    exact ⟨toNat_countDown u.dt, toNat_countDown u.st⟩
  case noWrap => exact fun h0 => ⟨if_neg h0, if_neg h0⟩
  case hostIn => rw [← hin]; rfl
  case count => rw [← hcount]; rfl

/-- A count below two dividers wraps to 0 exactly at one divider. -/
theorem mod_eq_zero_iff_eq {m d : Nat} (hpos : 0 < m) (hlt : m < 2 * d) : m % d = 0 ↔ m = d := by
  rcases Nat.lt_or_ge m d with h | h
  · rw [Nat.mod_eq_of_lt h]
    omega
  · rw [Nat.mod_eq_sub_mod h, Nat.mod_eq_of_lt (by omega)]
    omega

/-- After `n` ticks, at most one divider of them: the phase has moved on by `n`, and each timer has
counted exactly if the phase has wrapped. -/
theorem iterate_tick {s : State} (hs : s.tickPhase < s.config.timerDivider) {n : Nat}
    (hn : n ≤ s.config.timerDivider) :
    (tick^[n] s).config = s.config ∧
    (tick^[n] s).tickPhase = (s.tickPhase + n) % s.config.timerDivider ∧
    (tick^[n] s).dt = (if s.tickPhase + n < s.config.timerDivider then s.dt else countDown s.dt) ∧
    (tick^[n] s).st = (if s.tickPhase + n < s.config.timerDivider then s.st else countDown s.st) := by
  induction n with
  | zero => simp [hs, Nat.mod_eq_of_lt hs]
  | succ n ih =>
    obtain ⟨hconfig, hphase, hdt, hst⟩ := ih (by omega)
    have hnext : ((tick^[n] s).tickPhase + 1) % (tick^[n] s).config.timerDivider =
        (s.tickPhase + (n + 1)) % s.config.timerDivider := by
      rw [hconfig, hphase, Nat.mod_add_mod, Nat.add_assoc]
    have hwrap : (s.tickPhase + (n + 1)) % s.config.timerDivider = 0 ↔
        s.tickPhase + (n + 1) = s.config.timerDivider := mod_eq_zero_iff_eq (by omega) (by omega)
    rw [Function.iterate_succ_apply', tick_config, tick_tickPhase, tick_dt, tick_st, hnext, hdt, hst]
    refine ⟨hconfig, rfl, ?_, ?_⟩ <;> grind

/-- Settles O9: a whole divider of ticks wraps the phase exactly once. -/
theorem timersCountOncePerDivider : Obligations.TimersCountOncePerDivider := by
  intro s hs
  obtain ⟨-, hphase, hdt, hst⟩ := iterate_tick hs (Nat.le_refl _)
  rw [if_neg (by omega)] at hdt hst
  refine ⟨?_, ?_, ?_⟩
  · rw [hdt, toNat_countDown]
  · rw [hst, toNat_countDown]
  · rw [hphase, Nat.add_mod_right, Nat.mod_eq_of_lt hs]

/-! ### The key latch and the inputs (R91, R182) -/

/-- A step is its turn, committed. -/
theorem step_eq_mapNext (s : State) : step s = mapNext commit (turn s) := by
  unfold step runStep
  cases turn s <;> rfl

/-- `commit` overwrites the latch, and of the inputs it keeps the coming ones alone. -/
theorem commit_withEnv {k : Option Key} {q : List HostInput} {n : Nat} {u : State}
    (hq : q.tail = u.hostIn.tail) (hn : n = u.inputCount) :
    commit (withEnv k q n u) = latchKey (keyIn (withEnv k q n u)) (commit u) := by
  rw [commit_eq, commit_eq]
  simp only [withEnv, latchKey, hq, hn]
  rfl

/-- A step whose turn does not look at what differs gives the same outcome but for the key latched: the
latch before the step and the inputs spent by it are forgotten. -/
theorem step_withEnv {k : Option Key} {q : List HostInput} {s : State}
    (hturn : turn (withEnv k q s.inputCount s) = mapNext (withEnv k q s.inputCount) (turn s))
    (hq : q.tail = s.hostIn.tail) :
    step (withEnv k q s.inputCount s) =
      mapNext (latchKey (keyIn (withEnv k q s.inputCount s))) (step s) := by
  rw [step_eq_mapNext, step_eq_mapNext, hturn]
  cases ht : turn s with
  | next u =>
    obtain ⟨-, -, -, hin, hcount⟩ := turn_keeps ht
    have hq' : q.tail = u.hostIn.tail := by rw [hq, hin]
    exact congrArg Host.Outcome.next (commit_withEnv hq' hcount.symm)
  | fault f => rfl
  | refused r => rfl

/-- Every step that completes leaves its key in the latch. -/
theorem step_pressedKey {s t : State} (h : step s = .next t) : t.pressedKey = keyIn s := by
  obtain ⟨u, hu, rfl⟩ := step_next.mp h
  obtain ⟨-, -, -, hin, hcount⟩ := turn_keeps hu
  show keyIn u = keyIn s
  rw [keyIn, keyIn, currentInput, currentInput, hin, hcount]

/-- Latching the key of a step once more changes nothing. -/
theorem mapNext_latchKey_step (s : State) : mapNext (latchKey (keyIn s)) (step s) = step s := by
  cases h : step s with
  | next t =>
    rw [← step_pressedKey h]
    rfl
  | fault f => rfl
  | refused r => rfl

/-- Settles O10: no turn looks at the latch, and `commit` overwrites it. -/
theorem keyLatchIsWrittenAndNeverRead : Obligations.KeyLatchIsWrittenAndNeverRead := by
  refine ⟨fun s t => step_pressedKey, fun s k => ?_⟩
  have hturn := turn_env k s.hostIn s.inputCount s (fun _ _ => rfl) fun _ i _ =>
    exec_env i k s.hostIn s.inputCount s (fun _ => rfl) (fun _ => rfl)
  exact (step_withEnv hturn rfl).trans (mapNext_latchKey_step s)

/-- Settles O50: `RND` alone looks at the random byte, and the input is spent. -/
theorem randomByteIsReadByRndOnly : Obligations.RandomByteIsReadByRndOnly := by
  intro s key b b' rest hrnd
  let s₁ : State := { s with hostIn := ⟨key, b⟩ :: rest }
  have hturn := turn_env s.pressedKey (⟨key, b'⟩ :: rest) s.inputCount s₁ (fun _ _ => rfl)
    fun hw i hi => exec_env i _ _ _ s₁ (fun ⟨x, kk, hx⟩ => absurd (hx ▸ hi) (hrnd hw x kk))
      (fun _ => rfl)
  exact ((step_withEnv hturn rfl).trans (mapNext_latchKey_step s₁)).symm

/-- Settles O51: `SKP` and `SKNP` alone look at the key of a running step before it is latched. -/
theorem keyIsReadBySkipsAndWaitOnly : Obligations.KeyIsReadBySkipsAndWaitOnly := by
  intro s t k k' b rest hw hskp hsknp ht
  let s₁ : State := { s with hostIn := ⟨k, b⟩ :: rest }
  have hturn := turn_env s.pressedKey (⟨k', b⟩ :: rest) s.inputCount s₁
    (fun x hx => absurd (hw.symm.trans hx) nofun)
    fun _ i hi => exec_env i _ _ _ s₁ (fun _ => rfl) (by
      rintro ⟨x, rfl | rfl⟩
      · exact absurd hi (hskp x)
      · exact absurd hi (hsknp x))
  exact (step_withEnv hturn rfl).trans (congrArg (mapNext (latchKey k')) ht)

/-! ### Fetching what is stored, and stepping over zeros (R52, R67) -/

/-- An opcode is its two bytes, high byte first. -/
theorem joinBytes_extract (w : Opcode) :
    joinBytes (w.extractLsb' 8 8) (w.extractLsb' 0 8) = w := by
  apply BitVec.eq_of_getLsbD_eq
  intro i hi
  rw [joinBytes, BitVec.getLsbD_append]
  grind

/-- A running turn on an opcode that decodes is the `exec` of what it decodes to. -/
theorem turn_of_decode {s : State} {w : Opcode} {i : Instr} (hw : s.wait = .running)
    (hp : s.pc.toNat + 1 < 4096)
    (hword : joinBytes (s.ram.read s.pc.toNat) (s.ram.read (s.pc.toNat + 1)) = w)
    (hi : decode w = .ok i) : turn s = exec i s := by
  rw [turn_running hw, fetch_of_lt _ hp, hword, runOpcode_ok hi]

/-- Settles O12: the two bytes stored at `pc` are the two bytes fetched. -/
theorem fetchSeesStoredOpcode : Obligations.FetchSeesStoredOpcode := by
  intro s w i hp hw hi u
  have hhi : u.ram.read u.pc.toNat = w.extractLsb' 8 8 :=
    read_writeList_inside s.ram s.pc.toNat 0 [_, _] Nat.zero_lt_two
  have hlo : u.ram.read (u.pc.toNat + 1) = w.extractLsb' 0 8 :=
    read_writeList_inside s.ram s.pc.toNat 1 [_, _] Nat.one_lt_two
  exact turn_of_decode hw hp (by rw [hhi, hlo, joinBytes_extract]) hi

/-- Settles O13: two zero bytes are the opcode of `SYS 000`. -/
theorem zeroedMemoryIsSteppedOver : Obligations.ZeroedMemoryIsSteppedOver := by
  intro s hw hp hhi hlo
  have hzero : decode 0x0000 = .ok (.sys 0x000) := decodeOfEncode (.sys 0x000) rfl
  have hturn : turn s = exec (.sys 0x000) s :=
    turn_of_decode hw (by omega) (by rw [hhi, hlo]; rfl) hzero
  exact ⟨_, step_next.mpr ⟨_, hturn.trans (advance_of_lt hp), rfl⟩, toNat_target hp, rfl⟩

end Sys2Proof

namespace Sys2Proof

open Machine

/-! ### Opcodes and control flow -/

/-- Settles O6: each opcode of the list is decoded, bit by bit. -/
theorem sampleOpcodesDecode : Obligations.SampleOpcodesDecode := by
  unfold Obligations.SampleOpcodesDecode
  decide

/-- Settles O15: `SYS` is an advance alone. -/
theorem sysDoesNothing : Obligations.SysDoesNothing := fun _ =>
  ⟨decode_encode_sys, fun _ => goesTo_of_jumpTo rfl⟩

/-- A checked jump to a 12-bit target never faults. -/
theorem jumpTo_toNat (a : Addr) (s : State) : jumpTo a.toNat s = .next (writePc a s) := by
  rw [jumpTo_of_lt s a.isLt, BitVec.ofNat_toNat, BitVec.setWidth_eq]

/-- Settles O17: a 12-bit target is inside RAM. -/
theorem jumpSetsPc : Obligations.JumpSetsPc := fun nnn =>
  ⟨decode_of_ownRow _ rfl (Laws.OwnRow.jp nnn) nofun, jumpTo_toNat nnn⟩

/-- `CALL` with room on the stack pushes its own address and jumps. -/
theorem exec_call_of_room {nnn : Addr} {s : State} (h : s.stack.length < s.config.stackDepth) :
    exec (.call nnn) s = .next { s with stack := s.stack ++ [s.pc], pc := nnn } :=
  (push_of_room s.pc _ h).trans (jumpTo_toNat nnn _)

/-- Settles O16: the push is checked first, and a 12-bit target is inside RAM. -/
theorem callPushesItsOwnAddress : Obligations.CallPushesItsOwnAddress := fun nnn =>
  ⟨decode_of_ownRow _ rfl (Laws.OwnRow.call nnn) nofun, fun s =>
    ⟨exec_call_of_room, fun h => push_full s.pc _ h⟩⟩

/-- Settles O21: the call pushes its own address, which the return pops and goes 2 beyond. -/
theorem callThenReturnRestores : Obligations.CallThenReturnRestores := by
  intro nnn s hroom hp
  refine ⟨_, exec_call_of_room hroom, rfl, fun t' hstack => ?_⟩
  exact ⟨_, (exec_ret_concat hstack).trans (jumpTo_of_lt _ hp), rfl, toNat_target hp⟩

/-! ### Registers and ALU -/

/-- A byte shifted right by one is half its number (R129). -/
theorem byte_shiftRight_one_eq_ofNat (a : Byte) : a >>> 1 = BitVec.ofNat 8 (a.toNat / 2) := by
  apply BitVec.eq_of_toNat_eq
  have := a.isLt
  rw [BitVec.toNat_ushiftRight, BitVec.toNat_ofNat, Nat.shiftRight_eq_div_pow, pow_one,
    Nat.mod_eq_of_lt (by omega)]

/-- Bit 0 of a byte is the remainder of its number by 2 (R129). -/
theorem lowFlag_eq_ofNat (a : Byte) : lowFlag a = BitVec.ofNat 8 (a.toNat % 2) := by
  apply BitVec.eq_of_toNat_eq
  rw [lowFlag, BitVec.toNat_and, BitVec.toNat_ofNat, Nat.mod_eq_of_lt (by omega)]
  exact Nat.and_one_is_mod a.toNat

/-- Settles O27: bit 0 of `Vx` is written first, then the shift's source halved. -/
theorem shiftRightFlagsBitZero : Obligations.ShiftRightFlagsBitZero := fun x y =>
  ⟨decode_of_ownRow _ rfl (Laws.OwnRow.shr x y) nofun, fun s =>
    setsRegs_of_flag_then_result rfl (byte_shiftRight_one_eq_ofNat (shiftSource s x y))
      (lowFlag_eq_ofNat _)⟩

/-- A completed instruction that sets the registers to `f` leaves `f r` in `r`. -/
theorem readV_of_setsRegs {i : Instr} {s t : State} {f : Reg → Byte} (h : SetsRegs i s f)
    (ht : exec i s = .next t) (r : Reg) : readV t r = f r := by
  rcases Nat.lt_or_ge (s.pc.toNat + 2) 4096 with hp | hp
  · obtain ⟨t', ht', -, hf, -⟩ := h.1 hp
    cases ht'.symm.trans ht
    exact hf r
  · cases (h.2 hp).symm.trans ht

/-- Settles O31: the statements about the five instructions, at `x = F`. -/
theorem flagRegisterAsDestination : Obligations.FlagRegisterAsDestination := by
  intro y s t a b shifted
  have hsource : (if s.config.shiftUsesVy = true then readV s y else readV s 0xF).toNat = shifted :=
    apply_ite BitVec.toNat _ _ _
  refine ⟨fun h => ?add, fun h => ?sub, fun h => ?shr, fun h => ?subn, fun h => ?shl⟩
  case add =>
    rw [readV_of_setsRegs ((addWithCarryOut 0xF y).2 s) h, if_pos rfl, BitVec.toNat_ofNat]
    exact Nat.mod_mod _ _
  case sub =>
    rw [readV_of_setsRegs ((subtractSetsStrictlyGreater 0xF y).2 s) h, if_pos rfl, BitVec.toNat_ofNat]
    exact Nat.mod_mod _ _
  case shr =>
    have hlt : shifted < 256 := hsource ▸ BitVec.isLt _
    rw [readV_of_setsRegs ((shiftRightFlagsBitZero 0xF y).2 s) h, if_pos rfl, BitVec.toNat_ofNat,
      hsource]
    exact Nat.mod_eq_of_lt ((Nat.div_le_self _ _).trans_lt hlt)
  case subn =>
    rw [readV_of_setsRegs ((reverseSubtractFlagsLast 0xF y).2 s) h, if_pos rfl]
    exact apply_ite BitVec.toNat _ _ _
  case shl =>
    rw [readV_of_setsRegs ((shiftLeftFlagsBitSeven 0xF y).2 s) h, if_pos rfl, BitVec.toNat_ofNat,
      hsource]
    exact Nat.mod_mod _ _

/-- Settles O30: one register write, of the step's random byte masked. -/
theorem randomByteIsMasked : Obligations.RandomByteIsMasked := by
  refine fun x kk => ⟨decode_of_ownRow _ rfl (Laws.OwnRow.rnd x kk) nofun, fun s => ⟨?_, ?_⟩⟩
  · exact setsRegs_of_writeV rfl rfl
  · intro inp rest h
    rw [rndIn, currentInput, h]

/-- Settles O42: one register write, of the delay timer. -/
theorem readDelayTimer : Obligations.ReadDelayTimer := fun x =>
  ⟨decode_of_ownRow _ rfl (Laws.OwnRow.ldFromDt x) nofun, fun _ => setsRegs_of_writeV rfl rfl⟩

/-- Settles O43: one write of a timer each. -/
theorem setTimers : Obligations.SetTimers := fun x =>
  ⟨decode_of_ownRow _ rfl (Laws.OwnRow.ldDt x) nofun, decode_of_ownRow _ rfl (Laws.OwnRow.ldSt x) nofun,
    fun s => ⟨becomes_of_advance rfl (writeDt_pc _ s), becomes_of_advance rfl (writeSt_pc _ s)⟩⟩

/-! ### Index register and memory -/

/-- The address of a digit's glyph is five times the digit: it does not wrap (R143). -/
theorem glyphAddr_eq_ofNat {u : Byte} : glyphAddr u = BitVec.ofNat 12 (u.toNat * 5) := by
  apply BitVec.eq_of_toNat_eq
  have hwiden : (u.setWidth 12).toNat = u.toNat := BitVec.toNat_setWidth_of_le (by decide)
  rw [glyphAddr, BitVec.toNat_mul, hwiden, BitVec.toNat_ofNat]
  rfl

/-- Settles O34: the digit is checked first; then one write of `I`. -/
theorem fontPointerOrFault : Obligations.FontPointerOrFault := by
  refine fun x => ⟨decode_of_ownRow _ rfl (Laws.OwnRow.ldF x) nofun, fun s =>
    ⟨fun h => ?_, fun h => if_pos h⟩⟩
  exact becomes_of_writeI (if_neg (Nat.not_lt.mpr h)) glyphAddr_eq_ofNat

/-- Settles O35: one checked store of the three digits. -/
theorem decimalDigitsAreStored : Obligations.DecimalDigitsAreStored := fun x =>
  ⟨decode_of_ownRow _ rfl (Laws.OwnRow.ldB x) nofun, fun _ => storesAt_of_store rfl⟩

/-- Settles O36: one checked store of the first registers. -/
theorem blockStore : Obligations.BlockStore := by
  refine fun x => ⟨decode_of_ownRow _ rfl (Laws.OwnRow.store x) nofun, fun s => ?_⟩
  refine storesAt_of_store ?_
  rw [List.length_map, List.length_range]
  rfl

/-- A range of at least one byte that ends beyond 0xFFF fails the check of R44. -/
theorem not_rangeInRam {base count : Nat} (hpos : 0 < count) (h : 4096 < base + count) :
    ¬rangeInRam base count = true := by
  rw [rangeInRam_iff, not_or]
  exact ⟨hpos.ne', Nat.not_le.mpr h⟩

/-- Settles O37: one checked load of the first registers. -/
theorem blockLoad : Obligations.BlockLoad := by
  refine fun x => ⟨decode_of_ownRow _ rfl (Laws.OwnRow.load x) nofun, fun s count hcount => ?_⟩
  obtain rfl : count = blockCount s x := hcount
  refine ⟨fun hfit => ?fits, fun hexceeds => ?exceeds⟩
  case fits =>
    have hrange := (rangeInRam_iff _ _).mpr (.inr hfit)
    refine setsRegs_of_advance (if_pos hrange) (loadRegs_frame _ _ s) fun r => ?_
    rw [readV_loadRegs 0 _ s r (by simpa using blockCount_le s x)]
    simp only [blockBytes_length, Nat.zero_le, true_and, Nat.zero_add, Nat.sub_zero]
    refine ite_congr rfl (fun hr => ?_) fun _ => rfl
    rw [List.getD_eq_getElem _ _ (by simpa using hr), blockBytes_get s hr]
    rfl
  case exceeds =>
    have hidx := s.idx.isLt
    exact if_neg (not_rangeInRam (by omega) hexceeds)

/-! ### Display (44_display.md) -/

/-- A draw is the range check, then one write of the display and one of `VF`. -/
theorem exec_drw (x y : Reg) (n : Nibble) (s : State) :
    exec (.drw x y n) s = if rangeInRam s.idx.toNat n.toNat then
      advance (writeVF (collisionFlag (drawn s x y n).2) (writeDisplay (drawn s x y n).1 s))
    else raise .memoryOutOfBounds := rfl

/-- The sprite of a draw has a 1 bit on the pixel. -/
def drawLights (s : State) (x y : Reg) (n : Nibble) (r : Fin 32) (c : Fin 64) : Bool :=
  spriteLights (spriteBytes s s.idx.toNat n.toNat) (readV s y).toNat (readV s x).toNat r c

/-- The rows of a sprite are at most fifteen, so none falls on another. -/
theorem spriteBytes_length_le (s : State) (base : Nat) (n : Nibble) :
    (spriteBytes s base n.toNat).length ≤ 32 := by
  have := n.isLt
  rw [spriteBytes_length]
  omega

theorem pixel_drawn (s : State) (x y : Reg) (n : Nibble) (r : Fin 32) (c : Fin 64) :
    (drawn s x y n).1.pixel r c = (s.display.pixel r c ^^ drawLights s x y n r c) :=
  pixel_blitRows _ (spriteBytes_length_le s _ n) _ _ _ r c

/-- A draw reports a collision exactly if a lit pixel lies under a 1 bit of the sprite. -/
theorem collision_drawn (s : State) (x y : Reg) (n : Nibble) :
    (drawn s x y n).2 = true ↔ ∃ r c, drawLights s x y n r c = true ∧ s.display.pixel r c = true :=
  (collision_blitRows _ (spriteBytes_length_le s _ n) _ _ (s.display, false)).trans
    (or_iff_right Bool.false_ne_true)

/-- Such a pixel is one that goes dark. -/
theorem goesDark_iff (s : State) (x y : Reg) (n : Nibble) (r : Fin 32) (c : Fin 64) :
    s.display.pixel r c = true ∧ (drawn s x y n).1.pixel r c = false ↔
      drawLights s x y n r c = true ∧ s.display.pixel r c = true := by
  rw [pixel_drawn]
  cases s.display.pixel r c <;> simp

theorem spriteBytes_getD (s : State) {base n row : Nat} (h : row < n) :
    (spriteBytes s base n).getD row 0 = s.ram.read (base + row) := by
  simp [spriteBytes, h, readByte]

/-- The pixels a draw lights, as the loops of R152 reach them. -/
theorem drawLights_iff (s : State) (x y : Reg) (n : Nibble) (r : Fin 32) (c : Fin 64) :
    drawLights s x y n r c = true ↔ ∃ row col, row < n.toNat ∧ col < 8 ∧
      (s.ram.read (s.idx.toNat + row)).getLsbD (7 - col) = true ∧
      r.val = ((readV s y).toNat + row) % 32 ∧ c.val = ((readV s x).toNat + col) % 64 := by
  rw [drawLights, spriteLights_iff _ (spriteBytes_length_le s _ n), spriteBytes_length]
  refine exists_congr fun row => exists_congr fun col => and_congr_right fun hrow => ?_
  rw [spriteBytes_getD s hrow]

/-- The sprite has a 1 bit somewhere on the display exactly if one of its bytes is not 0. -/
theorem exists_drawLights_iff (s : State) (x y : Reg) (n : Nibble) :
    (∃ r c, drawLights s x y n r c = true) ↔
      ∃ row, row < n.toNat ∧ s.ram.read (s.idx.toNat + row) ≠ 0 := by
  simp only [drawLights_iff]
  constructor
  · rintro ⟨r, c, row, col, hrow, -, hbit, -, -⟩
    refine ⟨row, hrow, fun h0 => ?_⟩
    rw [h0] at hbit
    simp at hbit
  · rintro ⟨row, hrow, hne⟩
    obtain ⟨bit, hlt, hbit⟩ : ∃ bit, bit < 8 ∧ (s.ram.read (s.idx.toNat + row)).getLsbD bit = true := by
      by_contra! hall
      exact hne (BitVec.eq_of_getLsbD_eq fun bit hlt => by simpa using hall bit hlt)
    refine ⟨rowOf ((readV s y).toNat + row), colOf ((readV s x).toNat + (7 - bit)), row, 7 - bit, hrow,
      by omega, ?_, rfl, rfl⟩
    rwa [show 7 - (7 - bit) = bit by omega]

/-- What a completed draw leaves on the display and in `VF`. -/
theorem exec_drw_next {x y : Reg} {n : Nibble} {s t : State} (h : exec (.drw x y n) s = .next t) :
    t.display = (drawn s x y n).1 ∧ readV t 0xF = flagByte (drawn s x y n).2 := by
  obtain ⟨-, -, rfl⟩ := exec_next.mp h
  exact ⟨rfl, (readV_writePc _ _ _).trans (readV_writeVF_same _ _)⟩

/-- A draw onto a lit pixel sets `VF` to 1. -/
theorem readV_flag_of_hit {x y : Reg} {n : Nibble} {s t : State} (h : exec (.drw x y n) s = .next t)
    (hhit : ∃ r c, drawLights s x y n r c = true ∧ s.display.pixel r c = true) :
    readV t 0xF = 1 := by
  obtain ⟨-, hflag⟩ := exec_drw_next h
  rw [hflag, (collision_drawn s x y n).mpr hhit]
  rfl

/-- A draw onto no lit pixel sets `VF` to 0. -/
theorem readV_flag_of_miss {x y : Reg} {n : Nibble} {s t : State} (h : exec (.drw x y n) s = .next t)
    (hmiss : ¬∃ r c, drawLights s x y n r c = true ∧ s.display.pixel r c = true) :
    readV t 0xF = 0 := by
  obtain ⟨-, hflag⟩ := exec_drw_next h
  rw [hflag, Bool.eq_false_iff.mpr (mt (collision_drawn s x y n).mp hmiss)]
  rfl

/-- Settles O39: the blit inverts the pixels the sprite lights, and collides where one of them was lit. -/
theorem drawInvertsSpritePixels : Obligations.DrawInvertsSpritePixels := by
  refine fun x y n => ⟨decode_of_ownRow _ rfl (Laws.OwnRow.drw x y n) nofun, fun s =>
    ⟨?range, ?advance, ?draw⟩⟩
  case range =>
    exact fun hpos hexceeds => if_neg (not_rangeInRam hpos hexceeds)
  case advance =>
    intro hp
    rw [exec_drw]
    split
    · exact jumpTo_of_ge _ hp
    · rfl
  case draw =>
    intro hfit hp
    have hexec := ((exec_drw x y n s).trans (if_pos ((rangeInRam_iff _ _).mpr hfit))).trans
      (advance_of_lt hp)
    refine ⟨_, hexec, toNat_target hp, ?pixels, ?hit, ?noHit, ?regs, rfl⟩
    case pixels =>
      intro r c
      rw [← drawLights_iff, (exec_drw_next hexec).1, pixel_drawn]
      cases s.display.pixel r c <;> simp
    case hit =>
      rintro ⟨r, c, hdark⟩
      exact readV_flag_of_hit hexec ⟨r, c, (goesDark_iff s x y n r c).mp hdark⟩
    case noHit =>
      refine fun hlit => readV_flag_of_miss hexec fun ⟨r, c, hrc⟩ => ?_
      obtain ⟨hon, hoff⟩ := (goesDark_iff s x y n r c).mpr hrc
      exact Bool.false_ne_true (hoff.symm.trans (hlit r c hon))
    case regs =>
      intro r hr
      exact (readV_writeVF r _ _).trans (if_neg hr)

/-- A draw depends on the display, the sprite bytes and the coordinates alone. -/
theorem drawLights_congr {s t : State} {x y : Reg} (n : Nibble) (hram : t.ram = s.ram)
    (hidx : t.idx = s.idx) (hx : readV t x = readV s x) (hy : readV t y = readV s y) :
    drawLights t x y n = drawLights s x y n := by
  funext r c
  rw [drawLights, drawLights, spriteBytes, spriteBytes, hx, hy, hidx]
  simp only [readByte, hram]

/-- Settles O40: the second draw inverts the same pixels, so it restores them and, on a dark background,
collides with exactly what the first has lit. -/
theorem drawingTwiceRestores : Obligations.DrawingTwiceRestores := by
  intro x y n s t t' u ht hdisplay hram hidx hx hy hu
  have hlights := drawLights_congr n hram hidx hx hy
  have hfirst : ∀ r c, t'.display.pixel r c = (s.display.pixel r c ^^ drawLights s x y n r c) := by
    intro r c
    rw [hdisplay, (exec_drw_next ht).1, pixel_drawn]
  refine ⟨display_ext fun r c => ?_, fun hdark => ⟨?first, ?second, ?none⟩⟩
  · rw [(exec_drw_next hu).1, pixel_drawn, hlights, hfirst, Bool.xor_assoc, Bool.xor_self,
      Bool.xor_false]
  case first =>
    refine readV_flag_of_miss ht fun ⟨r, c, _, hlit⟩ => ?_
    exact Bool.false_ne_true ((hdark r c).symm.trans hlit)
  case second =>
    intro hbyte
    obtain ⟨r, c, hrc⟩ := (exists_drawLights_iff s x y n).mpr hbyte
    refine readV_flag_of_hit hu ⟨r, c, ?_, ?_⟩
    · rw [hlights, hrc]
    · rw [hfirst, hdark, hrc, Bool.false_xor]
  case none =>
    refine fun hzero => readV_flag_of_miss hu fun ⟨r, c, hrc, _⟩ => ?_
    rw [hlights] at hrc
    obtain ⟨row, hrow, hne⟩ := (exists_drawLights_iff s x y n).mp ⟨r, c, hrc⟩
    exact hne (hzero row hrow)

end Sys2Proof

namespace Sys2Proof

open Machine

/-! ### Keys (45_timers_keys.md) -/

/-- The key with the code in the register, compared as a whole byte (R160). -/
theorem keyMatches_iff {key : Option Key} {u : Byte} :
    keyMatches key u = true ↔ ∃ k, key = some k ∧ k.toNat = u.toNat := by
  cases key with
  | none => simp [keyMatches]
  | some k =>
    have hwiden : (k.setWidth 8).toNat = k.toNat := BitVec.toNat_setWidth_of_le (by decide)
    simp only [keyMatches, beq_iff_eq, Option.some.injEq, exists_eq_left']
    rw [← BitVec.toNat_inj, hwiden]

/-- Settles O41: `SKP` is the skip on the match of key and register, `SKNP` the skip on its negation. -/
theorem skipsOnKey : Obligations.SkipsOnKey := by
  refine fun x => ⟨decode_of_ownRow _ rfl (Laws.OwnRow.skp x) nofun,
    decode_of_ownRow _ rfl (Laws.OwnRow.sknp x) nofun, fun s => ⟨?pressed, ?notPressed, ?input⟩⟩
  case pressed =>
    intro hkey
    have hmatch := keyMatches_iff.mpr hkey
    have hskp : exec (.skp x) s = skipIf true s := congrArg (skipIf · s) hmatch
    have hsknp : exec (.sknp x) s = skipIf false s := congrArg (fun b => skipIf (!b) s) hmatch
    exact ⟨goesTo_of_skipIf hskp, goesTo_of_skipIf hsknp⟩
  case notPressed =>
    intro hkey
    have hmatch : keyMatches (keyIn s) (readV s x) = false :=
      Bool.eq_false_iff.mpr fun h => (keyMatches_iff.mp h).elim fun k hk => hkey k hk.1 hk.2
    have hskp : exec (.skp x) s = skipIf false s := congrArg (skipIf · s) hmatch
    have hsknp : exec (.sknp x) s = skipIf true s := congrArg (fun b => skipIf (!b) s) hmatch
    exact ⟨goesTo_of_skipIf hskp, goesTo_of_skipIf hsknp⟩
  case input =>
    intro inp rest h
    rw [keyIn, currentInput, h]

/-- A turn of the key wait without a key changes nothing (R82). -/
theorem turn_waiting_of_none {s : State} {x : Reg} (hw : s.wait = .waitingForKey x)
    (hk : keyIn s = none) : turn s = .next s := by
  rw [turn_waiting hw, waitTurn, hk]

/-- A turn of the key wait with a key stores it, ends the wait and goes on (R82). -/
theorem turn_waiting_of_some {s : State} {x : Reg} {k : Key} (hw : s.wait = .waitingForKey x)
    (hk : keyIn s = some k) :
    turn s = advance (writeWait .running (writeV x (k.setWidth 8) s)) := by
  rw [turn_waiting hw, waitTurn, hk]

/-- Settles O44: `LD Vx, K` writes the wait alone, and the steps after it are turns of the wait. -/
theorem keyWait : Obligations.KeyWait := by
  refine fun x => ⟨decode_of_ownRow _ rfl (Laws.OwnRow.ldKey x) nofun, fun _ => rfl, fun s hw =>
    ⟨fun hk => step_next.mpr ⟨s, turn_waiting_of_none hw hk, rfl⟩, fun k hk =>
      ⟨fun hp => ?_, fun hp => ?_⟩⟩⟩
  · have hturn := (turn_waiting_of_some hw hk).trans (advance_of_lt hp)
    refine ⟨_, step_next.mpr ⟨_, hturn, rfl⟩, toNat_target hp, fun r => ?_, rfl⟩
    rw [BitVec.ofNat_toNat]
    exact readV_writeV x r _ s
  · exact step_fault.mpr ((turn_waiting_of_some hw hk).trans (jumpTo_of_ge _ hp))

/-! ### Memory as data (20_memory.md R11) -/

/-- An address that is not listed reads as its reset contents. -/
theorem read_of_forall_ne {m : Memory} {a : Nat} (h : ∀ c ∈ m, c.1 ≠ a) :
    Memory.read m a = Memory.blank a := by
  induction m with
  | nil => rfl
  | cons c rest ih =>
    obtain ⟨hc, hrest⟩ := List.forall_mem_cons.mp h
    exact (if_neg hc).trans (ih hrest)

/-- A canonical memory lists exactly the cells that read as something else than their reset contents. -/
theorem mem_iff_read {m : Memory} (h : Memory.wf m) (c : Host.Cell) :
    c ∈ m ↔ Memory.read m c.1 = c.2 ∧ c.2 ≠ Memory.blank c.1 := by
  induction m with
  | nil =>
    simp only [List.not_mem_nil, false_iff, not_and, not_not]
    exact fun hread => hread.symm
  | cons d rest ih =>
    obtain ⟨hlt, hsorted⟩ := List.pairwise_cons.mp h.1
    obtain ⟨⟨-, hd⟩, hcells⟩ := List.forall_mem_cons.mp h.2
    rw [List.mem_cons, ih ⟨hsorted, hcells⟩]
    by_cases hdc : d.1 = c.1
    · have hread : Memory.read (d :: rest) c.1 = d.2 := if_pos hdc
      have hrest : Memory.read rest c.1 = Memory.blank c.1 :=
        read_of_forall_ne fun e he => (hdc ▸ hlt e he).ne'
      rw [hread, hrest, or_iff_left fun ⟨heq, hne⟩ => hne heq.symm]
      constructor
      · rintro rfl
        exact ⟨rfl, hd⟩
      · exact fun ⟨heq, _⟩ => (Prod.ext hdc heq).symm
    · have hread : Memory.read (d :: rest) c.1 = Memory.read rest c.1 := if_neg hdc
      rw [hread]
      refine or_iff_right ?_
      rintro rfl
      exact hdc rfl

/-- Settles O55: the two lists are sorted and, as they read alike, have the same cells. -/
theorem canonicalMemoriesThatReadAlikeAreEqual :
    Obligations.CanonicalMemoriesThatReadAlikeAreEqual := by
  intro m m' hm hm' hread
  have hmem : ∀ c, c ∈ m ↔ c ∈ m' := fun c => by rw [mem_iff_read hm, mem_iff_read hm', hread]
  have hirrefl : Std.Irrefl fun c d : Host.Cell => c.1 < d.1 := ⟨fun c => Nat.lt_irrefl c.1⟩
  have hantisymm : Std.Antisymm fun c d : Host.Cell => c.1 < d.1 :=
    ⟨fun _ _ hcd hdc => absurd hcd (Nat.lt_asymm hdc)⟩
  exact hm.1.eq_of_mem_iff hm'.1 hmem

/-! ### Reset and load (70_reset_and_hazards.md) -/

/-- Settles O49: the state of record after a fault is the one before. -/
theorem faultsChangeNothing : Obligations.FaultsChangeNothing := by
  intro q rest s f h
  have hrecord : stateOfRecord s (serve q s) = s := by rw [h]; rfl
  refine ⟨congrArg (serveAll rest) hrecord, ?_⟩
  show serve q (stateOfRecord s (serve q s)) = _
  rw [hrecord, h]

/-- Settles O57: the image fits or it does not. -/
theorem loadFailsExactlyWhenTooLong : Obligations.LoadFailsExactlyWhenTooLong := by
  intro bytes base s
  refine ⟨fun h => ⟨loadImage_of_gt s h, ?_⟩, fun h => ⟨_, loadImage_of_le s h⟩⟩
  rw [loadImage_of_gt s h]
  rfl

theorem readV_of_zeroRegs {s : State} (h : s.v = zeroRegs) (r : Reg) : readV s r = 0 := by
  simp [readV, h, zeroRegs]

/-- Settles O58: a load that fits is a store into the RAM of a machine just reset. -/
theorem loadCopiesImageAndResets : Obligations.LoadCopiesImageAndResets := by
  intro bytes base s
  refine ⟨loadImage_of_gt s, fun h => ⟨_, loadImage_of_le s h, ?_, ?_, ?_, rfl, rfl, rfl, pixel_dark,
    rfl, rfl, rfl, rfl, rfl⟩⟩
  · exact fun k hk => read_writeList_inside s.ram base k bytes hk
  · exact fun a ha => read_writeList_outside s.ram base a bytes ha
  · exact readV_of_zeroRegs rfl

/-- Settles O59: the load at the default base, where 4096 - 0x200 bytes fit. -/
theorem loadWithoutBaseIsAt200 : Obligations.LoadWithoutBaseIsAt200 := by
  intro bytes s
  obtain ⟨htoo, hfit⟩ := loadCopiesImageAndResets bytes 0x200 s
  refine ⟨rfl, fun h => htoo (by omega), fun h => ?_⟩
  obtain ⟨t, ht, hin, hout, -, -, -, -, -, hpc, -⟩ := hfit (by omega)
  exact ⟨t, ht, congrArg BitVec.toNat hpc, hin, hout⟩

/-- RAM above the font is 0 after reset (R25). -/
theorem blank_of_ge {a : Nat} (h : 80 ≤ a) : Memory.blank a = 0 :=
  List.getD_eq_default _ _ h

/-- Settles O56: both are the reset state but for the model's own fields. -/
theorem resetState : Obligations.ResetState := by
  intro s t ht
  obtain ⟨p, q, n, rfl⟩ : ∃ p q n,
      t = { State.reset with config := p, hostIn := q, inputCount := n } := by
    simp only [List.mem_cons, List.not_mem_nil, or_false] at ht
    rcases ht with rfl | rfl
    · exact ⟨_, _, _, rfl⟩
    · exact ⟨_, _, _, rfl⟩
  exact ⟨readV_of_zeroRegs rfl, rfl, rfl, rfl, rfl, rfl, pixel_dark, rfl, rfl, rfl,
    fun _ => blank_of_ge, rfl⟩

end Sys2Proof
